-- ==== Sys2Proof/Word.lean ====
section
/-! DEFINITION. The value types of the core (spec 00_scope.md R5, R7): bytes, 32-bit words and 64-bit program offsets. -/

namespace Sys2Proof

/-- One byte of the program, `u8` (R7, R29). -/
abbrev Byte := BitVec 8

/-- The 32 bits of a general register (`i32`, R13) or of the remainder register (R21). The signed reading is
`BitVec.toInt`, the unsigned one `BitVec.toNat`. -/
abbrev Word := BitVec 32

/-- The `u64` type of the program counter (R7, R17): `PC_W` = 64 (R5, decision D2). -/
abbrev Offset := BitVec 64

end Sys2Proof
end

