-- ==== Sys2Proof/Machine/Numbers.lean ====
section
/-! DEFINITION. The conversions of 00_scope.md R7 between the bits of a register and mathematical integers. -/

namespace Sys2Proof.Machine

/-- `wrap32(n)`: the unique `i32` congruent to `n` modulo 2^32 (R7). -/
def wrap32 (n : Int) : Word := BitVec.ofInt 32 n

/-- The signed reading of a register (R13). -/
def sval (v : Word) : Int := v.toInt

/-- `uval(v)`: the same 32 bits read as unsigned (R7, decision D4). -/
def uval (v : Word) : Nat := v.toNat

/-- `zext_64(uval(v))`: a register as a jump target or offset (42_jumps.md R92, decision D4). -/
def zext64 (v : Word) : Offset := BitVec.ofNat 64 (uval v)

/-- `zext_32(imm)`: a 16-bit immediate as a register value (R48, R84). -/
def zext32 (imm : BitVec 16) : Word := BitVec.ofNat 32 imm.toNat

/-- `trunc_div(n, d)`: the quotient rounded toward zero (R7). -/
def truncDiv (n d : Int) : Int := Int.tdiv n d

end Sys2Proof.Machine
end

