-- ==== Sys2Proof/Machine/Flags.lean ====
section
/-! DEFINITION. The values the ALU and the comparison give: sums, products, quotients, the remainder pattern and the
equality flag. The core has no carry, overflow, sign or zero flag (41_load_arithmetic.md R91). -/

namespace Sys2Proof.Machine

/-- ADD's result: the exact sum, wrapped (R85, R88). -/
def sumResult (a b : Word) : Word := wrap32 (sval a + sval b)

/-- MULTIPLY's result: the exact product, wrapped (R86, R88). -/
def productResult (a b : Word) : Word := wrap32 (sval a * sval b)

/-- DIVIDE's mathematical quotient (R87). -/
def quotient (n dv : Word) : Int := truncDiv (sval n) (sval dv)

/-- DIVIDE's result, wrapped: it differs from the quotient only for −2^31 by −1 (R87, R90; decision D6,
`DIV_OVERFLOW = Wrap`). -/
def quotientResult (n dv : Word) : Word := wrap32 (quotient n dv)

/-- What DIVIDE leaves in `rem`: the 32-bit pattern of `n - q * dv` (R87, 10_state.md R21; decision D5). -/
def remainderPattern (n dv : Word) : Word := wrap32 (sval n - quotient n dv * sval dv)

/-- What COMPARE_EQUAL leaves in `flag`: whether the 32-bit values are equal (43_compare_branch.md R101). -/
def equalFlag (a b : Word) : Bool := a == b

end Sys2Proof.Machine
end

