-- ==== Sys2Proof/Syntax.lean ====
section
/-! DEFINITION. The instructions of spec/opcode_table.json. -/

namespace Sys2Proof

/-- The instruction set (30_encoding.md R45, R49). A register operand is the RAW index byte (R47: "one whole byte read as
an unsigned number from 0 to 255"): a byte of 32 or more still decodes (R57) and faults when it is consumed (R73). The five
ILLEGAL rows of the opcode table are the five mask patterns of one sentinel (R108), which carries its opcode byte. -/
inductive Instr where
  | halt
  | load (index : Byte) (imm : BitVec 16)
  | add (srcA srcB dst : Byte)
  | multiply (srcA srcB dst : Byte)
  | divide (srcA srcB dst : Byte)
  | jumpAbsolute (reg : Byte)
  | jumpForward (reg : Byte)
  | jumpBackward (reg : Byte)
  | compareEqual (a b : Byte)
  | jumpIfEqual (reg : Byte)
  | jumpIfNotEqual (reg : Byte)
  | noOp
  | illegal (byte : Byte)
  deriving DecidableEq, Repr

end Sys2Proof
end

