-- ==== Sys2Proof/Decode.lean ====
section
/-! DEFINITION. The instruction decoder (30_encoding.md R43–R58): opcode byte to opcode, operand layout, length; the
decoder of instruction bytes; and the encoder. -/

namespace Sys2Proof

/-- The outputs of the opcode decoder (R49): the 12 opcodes and the sentinel ILLEGAL. -/
inductive Opcode where
  | halt | load | add | multiply | divide | jumpAbsolute | jumpForward | jumpBackward
  | compareEqual | jumpIfEqual | jumpIfNotEqual | noOp | illegal
  deriving DecidableEq, Repr

/-- The operand field kinds (R51): one register-index byte, or two immediate bytes. -/
inductive FieldKind where
  | reg | imm16
  deriving DecidableEq, Repr

/-- Why `decode` rejects a byte list. Only the list's length can do so: every opcode byte decodes (R50, R57). -/
inductive DecodeError where
  /-- No byte at all, so no opcode. -/
  | noOpcodeByte
  /-- The opcode byte is there, but not all of its operand bytes. DESIGN CHOICE (log entry 21): a list decoder has no
  instruction to give for it. In the core itself such an instruction still decodes, and its missing byte faults when it
  is consumed (R57, R60). -/
  | operandBytesMissing (op : Opcode)
  deriving DecidableEq, Repr

/-- `decode(b)` of R50: total and pure, with ILLEGAL for 12 to 255. -/
def decodeOpcode (b : Byte) : Opcode :=
  match b.toNat with
  | 0 => .halt
  | 1 => .load
  | 2 => .add
  | 3 => .multiply
  | 4 => .divide
  | 5 => .jumpAbsolute
  | 6 => .jumpForward
  | 7 => .jumpBackward
  | 8 => .compareEqual
  | 9 => .jumpIfEqual
  | 10 => .jumpIfNotEqual
  | 11 => .noOp
  | _ => .illegal

/-- `layout(op)` of R51: the operand fields the FSM consumes, in order. -/
def layout : Opcode → List FieldKind
  | .halt => []
  | .load => [.reg, .imm16]
  | .add => [.reg, .reg, .reg]
  | .multiply => [.reg, .reg, .reg]
  | .divide => [.reg, .reg, .reg]
  | .jumpAbsolute => [.reg]
  | .jumpForward => [.reg]
  | .jumpBackward => [.reg]
  | .compareEqual => [.reg, .reg]
  | .jumpIfEqual => [.reg]
  | .jumpIfNotEqual => [.reg]
  | .noOp => []
  | .illegal => []

/-- `size(k)` of R52, in bytes. -/
def fieldSize : FieldKind → Nat
  | .reg => 1
  | .imm16 => 2

/-- The length `L(op)` of R52, from the opcode alone (R53). -/
def opcodeLength (op : Opcode) : Nat := 1 + ((layout op).map fieldSize).sum

/-- The immediate of R48: the first byte is bits 15..8, the second bits 7..0 (big-endian, R34). -/
def imm16OfBytes (hi lo : Byte) : BitVec 16 := hi ++ lo

/-- Bits 15..8 of an immediate: the byte at the lower offset (R48). -/
def imm16High (imm : BitVec 16) : Byte := imm.extractLsb' 8 8

/-- Bits 7..0 of an immediate: the byte at the higher offset (R48). -/
def imm16Low (imm : BitVec 16) : Byte := imm.extractLsb' 0 8

/-- The instruction whose opcode byte is `b0` and whose operand bytes, as many as its format has (R44, R45), are the
first of `b1 b2 b3`. Operand bytes never change how `b0` decodes (R57). -/
def decodeBytes (b0 b1 b2 b3 : Byte) : Instr :=
  match decodeOpcode b0 with
  | .halt => .halt
  | .load => .load b1 (imm16OfBytes b2 b3)
  | .add => .add b1 b2 b3
  | .multiply => .multiply b1 b2 b3
  | .divide => .divide b1 b2 b3
  | .jumpAbsolute => .jumpAbsolute b1
  | .jumpForward => .jumpForward b1
  | .jumpBackward => .jumpBackward b1
  | .compareEqual => .compareEqual b1 b2
  | .jumpIfEqual => .jumpIfEqual b1
  | .jumpIfNotEqual => .jumpIfNotEqual b1
  | .noOp => .noOp
  | .illegal => .illegal b0

/-- The decoder on a byte list: the first instruction and the bytes after it. It takes exactly `L(op)` bytes, and
refuses a list that has fewer (log entry 21); a STEP does not use it, but `decodeBytes`. -/
def decode : List Byte → Except DecodeError (Instr × List Byte)
  | [] => .error .noOpcodeByte
  | b0 :: rest =>
    if rest.length + 1 < opcodeLength (decodeOpcode b0) then .error (.operandBytesMissing (decodeOpcode b0))
    else .ok (decodeBytes b0 (rest.getD 0 0) (rest.getD 1 0) (rest.getD 2 0),
      rest.drop (opcodeLength (decodeOpcode b0) - 1))

/-- The opcode of an instruction. -/
def opcodeOf : Instr → Opcode
  | .halt => .halt
  | .load _ _ => .load
  | .add _ _ _ => .add
  | .multiply _ _ _ => .multiply
  | .divide _ _ _ => .divide
  | .jumpAbsolute _ => .jumpAbsolute
  | .jumpForward _ => .jumpForward
  | .jumpBackward _ => .jumpBackward
  | .compareEqual _ _ => .compareEqual
  | .jumpIfEqual _ => .jumpIfEqual
  | .jumpIfNotEqual _ => .jumpIfNotEqual
  | .noOp => .noOp
  | .illegal _ => .illegal

/-- The bytes of an instruction, lowest offset first, from the formats of R44 and the opcode bytes of R49. -/
def encode : Instr → List Byte
  | .halt => [0x00]
  | .load r imm => [0x01, r, imm16High imm, imm16Low imm]
  | .add a b d => [0x02, a, b, d]
  | .multiply a b d => [0x03, a, b, d]
  | .divide a b d => [0x04, a, b, d]
  | .jumpAbsolute r => [0x05, r]
  | .jumpForward r => [0x06, r]
  | .jumpBackward r => [0x07, r]
  | .compareEqual a b => [0x08, a, b]
  | .jumpIfEqual r => [0x09, r]
  | .jumpIfNotEqual r => [0x0A, r]
  | .noOp => [0x0B]
  | .illegal b => [b]

/-- The four bytes of a table word of `nbits` bits: byte `k` is its bits `8k+7..8k`, and every bit from `nbits` on is 0.
The first byte lies at the lowest offset. Four bytes is the longest instruction (R43). -/
def tableBytes (nbits w : Nat) : List Byte :=
  [BitVec.ofNat 8 (w % 2 ^ nbits), BitVec.ofNat 8 (w % 2 ^ nbits / 256),
    BitVec.ofNat 8 (w % 2 ^ nbits / 65536), BitVec.ofNat 8 (w % 2 ^ nbits / 16777216)]

/-- The instruction the decoder reads from a word numbered as spec/opcode_table.json numbers its bits. -/
def decodeTableWord (nbits w : Nat) : Option Instr :=
  match decode (tableBytes nbits w) with
  | .ok (i, _) => some i
  | .error _ => none

end Sys2Proof
end

