-- ==== Sys2Proof/Config.lean ====
section
/-! DEFINITION. What an implementation of the core fixes (spec 00_scope.md R5), and the one constant without a body. -/

namespace Sys2Proof.Config

/-- The largest value `PROG_LEN_MAX` may take, which is also its default: 2^32 - 1 bytes (R5, decision D3). -/
def progLenBound : Nat := 4294967295

/-- The parameter `PROG_LEN_MAX`: "an implementation may take any smaller value" (R5; 93_implementation_defined.md U11).
LOAD_PROGRAM takes it as an argument, so a statement about every limit is a statement about every implementation. -/
abbrev ProgLenMax := { n : Nat // n ≤ progLenBound }

/-- The default of `PROG_LEN_MAX` (R5). -/
def progLenMaxDefault : ProgLenMax := ⟨progLenBound, Nat.le_refl _⟩

/-- DESIGN CHOICE (log entry 2). What stands in the operand field of a decoded instruction for a byte that the
program does not have, at the given offset `≥ LEN`. It has no body: R32 says that no such byte is ever read, and
nothing a step answers can rest on a value of it. -/
opaque absentByte : Nat → Byte

end Sys2Proof.Config
end

