-- ==== Sys2Proof/Machine/State.lean ====
section
/-! DEFINITION. The state of the core (spec 10_state.md), its faults and refusals, and its state after reset. -/

namespace Sys2Proof.Machine

/-- The five fault kinds of 60_exceptions.md R110. -/
inductive FaultKind where
  /-- "decoded byte has no assigned meaning" (R111). -/
  | illegalOpcode
  /-- "an operand byte used as a register index is ≥ 32" (R112). -/
  | invalidRegisterIndex
  /-- "DIVIDE's divisor register holds 0" (R113). -/
  | divisionByZero
  /-- "an instruction requires more operand bytes than remain in the program" (R114). -/
  | truncatedProgram
  /-- "JUMP_BACKWARD's offset exceeds the current program_counter (would underflow)" (R115). -/
  | invalidJumpTarget
  deriving DecidableEq, Repr

/-- The run-status register, the FSM's state (R23): "Running, Halted(Normal), Halted(Fault(kind))". -/
inductive Status where
  | running
  | haltedNormal
  | haltedFault (kind : FaultKind)
  deriving DecidableEq, Repr

/-- The bytes of the program buffer as (offset, byte) pairs: offsets strictly rising, and no pair whose byte is 0, which
is what an offset below `LEN` without a pair holds. -/
abbrev Memory := List Host.Cell

/-- Every element of state that 10_state.md gives the core, and nothing else (R24, R26). -/
structure State where
  /-- The register file `x[0]` to `x[31]` (R13). -/
  regs : Vector Word 32
  /-- The program counter `pc` (R17). -/
  pc : Offset
  /-- The remainder register `rem`, as its 32-bit pattern (R21). -/
  rem : Word
  /-- The equality flag `flag` (R22). -/
  flag : Bool
  /-- The run status `status` (R23). -/
  status : Status
  /-- `LEN`, the length of the loaded program in bytes (R25). -/
  len : Nat
  /-- The bytes of the loaded program (R25). -/
  mem : Memory
  deriving DecidableEq, Repr

/-- Why the MODEL stops. The core's own five faults are no stop: they are `Status.haltedFault`, a next state (R77). -/
inductive Fault where
  /-- Raised by `memRead` alone, for a program byte at an offset at or above `LEN`, which "address nothing" (R29). Every
  read of a step stands behind the check R32 asks for, so no step raises it (`Laws/Step.lean`). Safe. -/
  | programReadPastLen (offset : Nat)
  deriving DecidableEq, Repr

/-- What the model turns away. -/
inductive Refusal where
  /-- An instruction without a meaning. No arm of `exec` answers it: every instruction has its meaning. Safe. -/
  | notModelled (mnemonic : String)
  /-- Raised by the host command LOAD_PROGRAM alone, for a program longer than `PROG_LEN_MAX`: "not accepted" (R131; U11
  "refuse"). No step raises it. Safe. -/
  | programTooLong (length : Nat)
  deriving DecidableEq, Repr

/-- The core at creation (10_state.md R27, 70_reset_and_hazards.md R128): every register 0, `pc` 0, `rem` 0, `flag` false,
Running, and an empty program. -/
def State.reset : State where
  regs := Vector.replicate 32 0
  pc := 0
  rem := 0
  flag := false
  status := .running
  len := 0
  mem := []

end Sys2Proof.Machine
end

