-- ==== Sys2Proof/Machine/Ops.lean ====
section
/-! DEFINITION. The named operations over the program buffer, the registers and the run status. -/

namespace Sys2Proof.Machine

/-- What one instruction, or one step, answers. -/
abbrev Result := Host.Outcome State Fault Refusal

/-- The state a result goes on to, if it does. -/
def nextState? : Result → Option State
  | .next s => some s
  | .fault _ => none
  | .refused _ => none

/-! ### The program buffer -/

/-- The byte a memory holds at an offset; one without a pair holds 0. -/
def Memory.read : Memory → Nat → Byte
  | [], _ => 0#8
  | (b, v) :: m, a => if b = a then v else Memory.read m a

/-- A memory with one byte replaced, in canonical form. -/
def Memory.write : Memory → Nat → Byte → Memory
  | [], a, v => if v = 0#8 then [] else [(a, v)]
  | (b, w) :: m, a, v =>
    if a < b then (if v = 0#8 then (b, w) :: m else (a, v) :: (b, w) :: m)
    else if a = b then (if v = 0#8 then m else (a, v) :: m)
    else (b, w) :: Memory.write m a v

/-- A memory with consecutive bytes replaced, from offset `a` up. -/
def Memory.writeBytes : Memory → Nat → List Byte → Memory
  | m, _, [] => m
  | m, a, v :: vs => Memory.writeBytes (Memory.write m a v) (a + 1) vs

/-- The memory that holds the given bytes from offset `a` up, and nothing else. -/
def Memory.ofBytes : Nat → List Byte → Memory
  | _, [] => []
  | a, v :: vs => if v = 0#8 then Memory.ofBytes (a + 1) vs else (a, v) :: Memory.ofBytes (a + 1) vs

/-- The canonical form: offsets strictly rising, and no pair that says what an offset without a pair holds. -/
abbrev Memory.wf (m : Memory) : Prop := m.Pairwise (fun c d => c.1 < d.1) ∧ ∀ c ∈ m, c.2 ≠ 0#8

/-- `MemRead(a, 1)` (00_scope.md R8, 20_memory.md R31): defined only below `LEN`. -/
def memRead (s : State) (a : Nat) : Except Fault Byte :=
  if a < s.len then .ok (Memory.read s.mem a) else .error (.programReadPastLen a)

/-- A program buffer that holds exactly the given bytes at offsets 0 up (10_state.md R25). -/
def setProgram (bytes : List Byte) (s : State) : State :=
  { s with len := bytes.length, mem := Memory.ofBytes 0 bytes }

/-! ### Registers, flag, remainder and program counter -/

/-- `x[i]` (R8). No register is hardwired (R13). -/
def readX (s : State) (i : Fin 32) : Word := s.regs[i]

/-- `x[i] <- v` (R8). -/
def writeX (i : Fin 32) (v : Word) (s : State) : State := { s with regs := s.regs.set i v }

/-- `rem <- v` (R8). -/
def writeRem (v : Word) (s : State) : State := { s with rem := v }

/-- `flag <- b` (R8). -/
def writeFlag (b : Bool) (s : State) : State := { s with flag := b }

/-- `pc <- target` (R8). -/
def jumpTo (target : Offset) (s : State) : State := { s with pc := target }

/-- The advance of `pc` over one consumed byte (10_state.md R18). -/
def advance (s : State) : State := { s with pc := s.pc + 1 }

/-! ### The run status -/

/-- Taking a fault, `raise F(info)` (40_execution_cycle.md R77, 60_exceptions.md R119): `status` becomes
Halted(Fault(F)), `pc` keeps the value it has, nothing else changes, and `info` is stored nowhere (R117). -/
def raise (kind : FaultKind) (s : State) : State := { s with status := .haltedFault kind }

/-- The normal end of a run (R68, R107). -/
def haltNormal (s : State) : State := { s with status := .haltedNormal }

/-- The only way back to Running (60_exceptions.md R120), RESET (70_reset_and_hazards.md R129): every element at its
value of 10_state.md R27, the program kept (R130). There is no return from a fault. -/
def resetCore (s : State) : State :=
  { regs := Vector.replicate 32 0, pc := 0, rem := 0, flag := false, status := .running, len := s.len, mem := s.mem }

/-- The 3-bit status code of 60_exceptions.md R110 (decision D9). -/
def statusCode : Status → BitVec 3
  | .running => 0
  | .haltedNormal => 1
  | .haltedFault .illegalOpcode => 2
  | .haltedFault .invalidRegisterIndex => 3
  | .haltedFault .divisionByZero => 4
  | .haltedFault .truncatedProgram => 5
  | .haltedFault .invalidJumpTarget => 6

end Sys2Proof.Machine
end

