-- ==== Sys2Proof/Machine/Operands.lean ====
section
/-! DEFINITION. Operand consumption (40_execution_cycle.md R72–R76): the primitives, and one combinator per format of
30_encoding.md R44. The VALUE of a consumed byte comes with the decoded instruction; whether the byte is there, and how far
`pc` moves, is checked here byte by byte. -/

namespace Sys2Proof.Machine

/-- What consuming an operand gives: a value and the state after it, or the state after the fault it raised. -/
inductive Consumed (α : Type) where
  | got (value : α) (s : State)
  | raised (s : State)
  deriving DecidableEq, Repr

/-- Go on with a consumed operand; a fault ends the instruction there (R8: "Pseudocode after a `raise` does not run"). -/
def andThen {α : Type} (c : Consumed α) (k : α → State → Result) : Result :=
  match c with
  | .got v s => k v s
  | .raised s => .next s

/-- `ReadByte()` of R72, for the operand byte `b` that stands at `pc`: TruncatedProgram, with `pc` unchanged, when
`pc ≥ LEN`. -/
def readByte (b : Byte) (s : State) : Consumed Byte :=
  if s.len ≤ s.pc.toNat then .raised (raise .truncatedProgram s) else .got b (advance s)

/-- `ReadReg()` of R73: the byte is checked as soon as it is read, and `pc` is already past it. -/
def readReg (b : Byte) (s : State) : Consumed (Fin 32) :=
  match readByte b s with
  | .raised t => .raised t
  | .got v t => if h : v.toNat < 32 then .got ⟨v.toNat, h⟩ t else .raised (raise .invalidRegisterIndex t)

/-- `ReadImm16()` of R74: high byte first. -/
def readImm16 (imm : BitVec 16) (s : State) : Consumed (BitVec 16) :=
  match readByte (imm16High imm) s with
  | .raised t => .raised t
  | .got hi t =>
    match readByte (imm16Low imm) t with
    | .raised u => .raised u
    | .got lo u => .got (imm16OfBytes hi lo) u

/-- Format `R`: one register. -/
def consumeR (r : Byte) (s : State) (k : Fin 32 → State → Result) : Result :=
  andThen (readReg r s) k

/-- Format `RR`: two registers, in byte order (R75). -/
def consumeRR (a b : Byte) (s : State) (k : Fin 32 → Fin 32 → State → Result) : Result :=
  andThen (readReg a s) fun i s => andThen (readReg b s) fun j s => k i j s

/-- Format `RRR`: `src_a`, `src_b`, `dst`, in byte order (R75). -/
def consumeRRR (a b d : Byte) (s : State) (k : Fin 32 → Fin 32 → Fin 32 → State → Result) : Result :=
  andThen (readReg a s) fun i s => andThen (readReg b s) fun j s => andThen (readReg d s) fun l s => k i j l s

/-- Format `RI16`: a register, then an immediate (R75). -/
def consumeRI16 (r : Byte) (imm : BitVec 16) (s : State) (k : Fin 32 → BitVec 16 → State → Result) : Result :=
  andThen (readReg r s) fun i s => andThen (readImm16 imm s) fun v s => k i v s

end Sys2Proof.Machine
end

