-- ==== Sys2Proof/Machine/CompareBranch.lean ====
section
/-! DEFINITION. COMPARE_EQUAL and the conditional jumps (43_compare_branch.md). -/

namespace Sys2Proof.Machine

/-- COMPARE_EQUAL (R101). -/
def execCompareEqual (a b : Byte) (s : State) : Result :=
  consumeRR a b s fun i j s => .next (writeFlag (equalFlag (readX s i) (readX s j)) s)

/-- JUMP_IF_EQUAL (R102): the register byte is consumed and checked whether or not the jump is taken (R100). -/
def execJumpIfEqual (reg : Byte) (s : State) : Result :=
  consumeR reg s fun i s => .next (if s.flag = true then jumpTo (zext64 (readX s i)) s else s)

/-- JUMP_IF_NOT_EQUAL (R103): the register byte is consumed and checked whether or not the jump is taken (R100). -/
def execJumpIfNotEqual (reg : Byte) (s : State) : Result :=
  consumeR reg s fun i s => .next (if s.flag = false then jumpTo (zext64 (readX s i)) s else s)

end Sys2Proof.Machine
end

