-- ==== Sys2Proof/Machine/Jumps.lean ====
section
/-! DEFINITION. The unconditional jumps (42_jumps.md). When the effect runs, `pc` is past the whole instruction
(10_state.md R19). No target is checked against the program (R93, R97). -/

namespace Sys2Proof.Machine

/-- JUMP_ABSOLUTE (R94). -/
def execJumpAbsolute (reg : Byte) (s : State) : Result :=
  consumeR reg s fun i s => .next (jumpTo (zext64 (readX s i)) s)

/-- JUMP_FORWARD (R95). -/
def execJumpForward (reg : Byte) (s : State) : Result :=
  consumeR reg s fun i s => .next (jumpTo (s.pc + zext64 (readX s i)) s)

/-- JUMP_BACKWARD (R96): InvalidJumpTarget, with `pc` past the instruction, when the value exceeds `pc`. -/
def execJumpBackward (reg : Byte) (s : State) : Result :=
  consumeR reg s fun i s =>
    if s.pc.toNat < uval (readX s i) then .next (raise .invalidJumpTarget s)
    else .next (jumpTo (s.pc - zext64 (readX s i)) s)

end Sys2Proof.Machine
end

