-- ==== Sys2Proof/Machine/LoadArithmetic.lean ====
section
/-! DEFINITION. LOAD, ADD, MULTIPLY and DIVIDE (41_load_arithmetic.md). Each meaning runs with `pc` past the opcode byte
(40_execution_cycle.md R69), consumes its operands, and writes only after its last check (R78). -/

namespace Sys2Proof.Machine

/-- LOAD (R84). -/
def execLoad (index : Byte) (imm : BitVec 16) (s : State) : Result :=
  consumeRI16 index imm s fun i v s => .next (writeX i (zext32 v) s)

/-- ADD (R85). -/
def execAdd (srcA srcB dst : Byte) (s : State) : Result :=
  consumeRRR srcA srcB dst s fun a b d s => .next (writeX d (sumResult (readX s a) (readX s b)) s)

/-- MULTIPLY (R86). -/
def execMultiply (srcA srcB dst : Byte) (s : State) : Result :=
  consumeRRR srcA srcB dst s fun a b d s => .next (writeX d (productResult (readX s a) (readX s b)) s)

/-- DIVIDE (R87): the divisor is checked after every operand (R76), and both results come from the old registers (R79). -/
def execDivide (srcA srcB dst : Byte) (s : State) : Result :=
  consumeRRR srcA srcB dst s fun a b d s =>
    if readX s b = 0 then .next (raise .divisionByZero s)
    else .next (writeRem (remainderPattern (readX s a) (readX s b))
      (writeX d (quotientResult (readX s a) (readX s b)) s))

end Sys2Proof.Machine
end

