-- ==== Sys2Proof/Machine/System.lean ====
section
/-! DEFINITION. NO_OP, HALT and the ILLEGAL sentinel (44_system.md). Each is one byte long, and `pc` is already past it. -/

namespace Sys2Proof.Machine

/-- NO_OP (R106): "no state change besides the opcode-byte advance". -/
def execNoOp (s : State) : Result := .next s

/-- HALT (R107). -/
def execHalt (s : State) : Result := .next (haltNormal s)

/-- ILLEGAL (R108): takes the IllegalOpcode fault. The offending byte is stored nowhere (60_exceptions.md R117). -/
def execIllegal (_byte : Byte) (s : State) : Result := .next (raise .illegalOpcode s)

end Sys2Proof.Machine
end

