-- ==== Sys2Proof/Machine/Dispatch.lean ====
section
/-! DEFINITION. The dispatch of 40_execution_cycle.md R71: one arm per instruction, run with `pc` past the opcode byte. -/

namespace Sys2Proof.Machine

def exec (i : Instr) (s : State) : Host.Outcome State Fault Refusal :=
  match i with
  | .halt => Sys2Proof.Machine.execHalt s
  | .load index imm => Sys2Proof.Machine.execLoad index imm s
  | .add srcA srcB dst => Sys2Proof.Machine.execAdd srcA srcB dst s
  | .multiply srcA srcB dst => Sys2Proof.Machine.execMultiply srcA srcB dst s
  | .divide srcA srcB dst => Sys2Proof.Machine.execDivide srcA srcB dst s
  | .jumpAbsolute reg => Sys2Proof.Machine.execJumpAbsolute reg s
  | .jumpForward reg => Sys2Proof.Machine.execJumpForward reg s
  | .jumpBackward reg => Sys2Proof.Machine.execJumpBackward reg s
  | .compareEqual a b => Sys2Proof.Machine.execCompareEqual a b s
  | .jumpIfEqual reg => Sys2Proof.Machine.execJumpIfEqual reg s
  | .jumpIfNotEqual reg => Sys2Proof.Machine.execJumpIfNotEqual reg s
  | .noOp => Sys2Proof.Machine.execNoOp s
  | .illegal byte => Sys2Proof.Machine.execIllegal byte s

end Sys2Proof.Machine
end

