-- ==== Sys2Proof/Machine/Fetch.lean ====
section
/-! DEFINITION. How a STEP begins (40_execution_cycle.md R67–R69): the halted check, the end-of-program check, the
opcode fetch and the decoding. -/

namespace Sys2Proof.Machine

/-- How a STEP begins: it ends at once, it runs an instruction, or it reads where it may not. -/
inductive Begun where
  | ended (s : State)
  | run (i : Instr) (s : State)
  | fault (f : Fault)
  deriving DecidableEq, Repr

/-- The operand byte at an offset as the decoder is given it. The offset is checked against `LEN` before the read (R32):
at or above it no byte is read, and `Config.absentByte` stands for it, since the instruction faults with TruncatedProgram
before it uses that byte (R60, R72; log entry 2). -/
def operandByte (s : State) (a : Offset) : Byte :=
  if a.toNat < s.len then Memory.read s.mem a.toNat else Config.absentByte a.toNat

/-- The instruction whose opcode byte is at `pc` (R69, R57). -/
def fetch (s : State) : Except Fault Instr :=
  match memRead s s.pc.toNat with
  | .ok b0 => .ok (decodeBytes b0 (operandByte s (s.pc + 1)) (operandByte s (s.pc + 2)) (operandByte s (s.pc + 3)))
  | .error f => .error f

/-- The beginning of a STEP while Running: past the end of the program it halts normally and reads nothing (R68);
otherwise the opcode byte is fetched and `pc` moves past it (R69). -/
def beginRunning (s : State) : Begun :=
  if s.len ≤ s.pc.toNat then .ended (haltNormal s)
  else
    match fetch s with
    | .ok i => .run i (advance s)
    | .error f => .fault f

/-- The beginning of a STEP: a halted core changes nothing (R67). -/
def beginStep (s : State) : Begun :=
  match s.status with
  | .running => beginRunning s
  | .haltedNormal => .ended s
  | .haltedFault _ => .ended s

/-- The state with a table word placed as the next instruction: its four bytes at `pc`, a program long enough to hold
them, and Running, without which no fetch happens (log entry 3). -/
def placeWord (s : State) (nbits w : Nat) : State :=
  { s with
    status := .running
    len := max s.len (s.pc.toNat + 4)
    mem := Memory.writeBytes s.mem s.pc.toNat (tableBytes nbits w) }

end Sys2Proof.Machine
end

