-- ==== Sys2Proof/Machine/Step.lean ====
section
/-! DEFINITION. The command STEP (40_execution_cycle.md R67–R77), one transition of the core. -/

namespace Sys2Proof.Machine

/-- One STEP: it begins as `beginStep` says and runs the fetched instruction to its end (R65). -/
def step (s : State) : Host.Outcome State Fault Refusal :=
  match beginStep s with
  | .ended t => .next t
  | .run i t => exec i t
  | .fault f => .fault f

/-- The host's placing of one instruction where `step` fetches next. It stands for a LOAD_PROGRAM (log entry 3). -/
def State.withFetchWord (s : State) (nbits w : Nat) : State := placeWord s nbits w

end Sys2Proof.Machine
end

