-- ==== Sys2Proof/Machine/Commands.lean ====
section
/-! DEFINITION. The host interface of 40_execution_cycle.md R64: the commands LOAD_PROGRAM, RESET, STEP and RUN, and the
read-only ports. -/

namespace Sys2Proof.Machine

/-- LOAD_PROGRAM (70_reset_and_hazards.md R131): the program buffer and `LEN`, and nothing else; a program longer than
`PROG_LEN_MAX` is not accepted. -/
def loadProgram (limit : Config.ProgLenMax) (bytes : List Byte) (s : State) : Result :=
  if bytes.length ≤ limit.val then .next (setProgram bytes s) else .refused (.programTooLong bytes.length)

/-- RUN within a budget of STEPs (R66, R139): STEP is repeated until the status is not Running. A budget that runs out
leaves the core Running (U2: a model of RUN takes a fuel argument). -/
def runFor : Nat → State → Result
  | 0, s => .next s
  | n + 1, s =>
    match step s with
    | .next t => if t.status = .running then runFor n t else .next t
    | .fault f => .fault f
    | .refused r => .refused r

/-- RUN itself (R66): it returns in `t` when some number of STEPs ends the run there. A run that never ends returns in no
state (R82). -/
def RunReturns (s t : State) : Prop := ∃ n, runFor n s = .next t ∧ t.status ≠ .running

/-- The commands the host gives the core (R64). -/
inductive Command where
  | loadProgram (bytes : List Byte)
  | reset
  | step
  | run (budget : Nat)
  deriving DecidableEq, Repr

/-- The effect of one command. STEP and RUN return the status of the state they answer. -/
def issue (limit : Config.ProgLenMax) (c : Command) (s : State) : Result :=
  match c with
  | .loadProgram bytes => loadProgram limit bytes s
  | .reset => .next (resetCore s)
  | .step => step s
  | .run budget => runFor budget s

/-- The read-only ports (R64). -/
inductive Port where
  | x (i : Fin 32)
  | pc
  | rem
  | flag
  | status
  deriving DecidableEq, Repr

/-- What a port shows: a register, `pc`, `rem` as its 32-bit pattern, the flag, or the status with its code (R110). -/
inductive PortValue where
  | word (v : Word)
  | offset (v : Offset)
  | bit (b : Bool)
  | state (status : Status) (code : BitVec 3)
  deriving DecidableEq, Repr

/-- Reading a port changes nothing: it is a function of the state (R16, R64). -/
def readPort (p : Port) (s : State) : PortValue :=
  match p with
  | .x i => .word (readX s i)
  | .pc => .offset s.pc
  | .rem => .word s.rem
  | .flag => .bit s.flag
  | .status => .state s.status (statusCode s.status)

end Sys2Proof.Machine
end

