-- ==== Sys2Proof/WellFormed.lean ====
section
/-! DEFINITION. Which instructions are well formed: the checks on an instruction's own fields. -/

namespace Sys2Proof

/-- A register-index byte that selects a register (30_encoding.md R47: "0–31 valid"). -/
def registerByteOk (b : Byte) : Bool := decide (b.toNat < 32)

/-- The opcode check: an ILLEGAL term carries a byte that has no assigned meaning, 12 to 255 (R54). Every term that
passes it has an encoding, whatever its register bytes. -/
def opcodeOk : Instr → Bool
  | .halt => true
  | .load _ _ => true
  | .add _ _ _ => true
  | .multiply _ _ _ => true
  | .divide _ _ _ => true
  | .jumpAbsolute _ => true
  | .jumpForward _ => true
  | .jumpBackward _ => true
  | .compareEqual _ _ => true
  | .jumpIfEqual _ => true
  | .jumpIfNotEqual _ => true
  | .noOp => true
  | .illegal b => decide (12 ≤ b.toNat)

/-- The register check: every register-index byte is 0 to 31 (10_state.md R14). -/
def registersOk : Instr → Bool
  | .halt => true
  | .load r _ => registerByteOk r
  | .add a b d => registerByteOk a && registerByteOk b && registerByteOk d
  | .multiply a b d => registerByteOk a && registerByteOk b && registerByteOk d
  | .divide a b d => registerByteOk a && registerByteOk b && registerByteOk d
  | .jumpAbsolute r => registerByteOk r
  | .jumpForward r => registerByteOk r
  | .jumpBackward r => registerByteOk r
  | .compareEqual a b => registerByteOk a && registerByteOk b
  | .jumpIfEqual r => registerByteOk r
  | .jumpIfNotEqual r => registerByteOk r
  | .noOp => true
  | .illegal _ => true

/-- Well formed: both checks pass. An instruction that fails the register check alone is one the core still decodes and
runs, into an InvalidRegisterIndex fault (R57). -/
def wellFormed (i : Instr) : Bool := opcodeOk i && registersOk i

end Sys2Proof
end

