-- ==== Sys2Proof/Safety.lean ====
section
/-! DEFINITION. The terms in which claims speak of a good state and a safe step, and the spec's tables of what each
instruction may change, raise and consume, written from the spec apart from the meanings. -/

namespace Sys2Proof.Machine

/-- `LEN ≤ PROG_LEN_MAX ≤ 2^32 - 1` (10_state.md R25; R5). -/
abbrev LenInRange (s : State) : Prop := s.len ≤ Config.progLenBound

/-- The invariant of every state the core can be in: the program bytes in canonical form and all below `LEN` (R25, R29),
`LEN` in range (R5), and `pc` below 2^33 (10_state.md R20). -/
abbrev StateInv (s : State) : Prop :=
  Memory.wf s.mem ∧ (∀ c ∈ s.mem, c.1 < s.len) ∧ LenInRange s ∧ s.pc.toNat < 2 ^ 33

/-- A step that goes on: it ends in no fault and no refusal of the model. -/
def Safe (s : State) : Prop := ∃ t, step s = .next t

/-- At least `n` operand bytes are in the program from `pc` up, so that none of them raises TruncatedProgram (R114). -/
abbrev Readable (n : Nat) (s : State) : Prop := s.pc.toNat + n ≤ s.len

/-- The register-index byte of a register (30_encoding.md R47). -/
def regByte (r : Fin 32) : Byte := BitVec.ofNat 8 r.val

/-- The operand bytes of an instruction: all but the opcode byte (R43). -/
def operandBytes (i : Instr) : List Byte := (encode i).drop 1

/-- The first operand check that fails, by layout (R51) and in byte order (R75, 60_exceptions.md R118 item 3), when
`avail` operand bytes are in the program and `n` of them are consumed: the fault, and how many operand bytes `pc` has
moved over. Before each byte TruncatedProgram (R72), after a register byte InvalidRegisterIndex (R73). -/
def firstOperandFault (avail : Nat) : List FieldKind → List Byte → Nat → Option (FaultKind × Nat)
  | .reg :: ks, b :: bs, n =>
    if avail ≤ n then some (.truncatedProgram, n)
    else if 32 ≤ b.toNat then some (.invalidRegisterIndex, n + 1)
    else firstOperandFault avail ks bs (n + 1)
  | .imm16 :: ks, _ :: _ :: bs, n =>
    if avail ≤ n then some (.truncatedProgram, n)
    else if avail ≤ n + 1 then some (.truncatedProgram, n + 1)
    else firstOperandFault avail ks bs (n + 2)
  | _, _, _ => none

/-- The operand fault of an instruction about to consume its operands in `s`, if it has one. -/
def operandFault (i : Instr) (s : State) : Option (FaultKind × Nat) :=
  firstOperandFault (s.len - s.pc.toNat) (layout (opcodeOf i)) (operandBytes i) 0

/-- The table of 60_exceptions.md R116: which instruction can raise which fault. -/
def mayRaise : Opcode → FaultKind → Bool
  | .illegal, k => k == .illegalOpcode
  | .halt, _ => false
  | .noOp, _ => false
  | .divide, k => k == .invalidRegisterIndex || k == .truncatedProgram || k == .divisionByZero
  | .jumpBackward, k => k == .invalidRegisterIndex || k == .truncatedProgram || k == .invalidJumpTarget
  | .load, k => k == .invalidRegisterIndex || k == .truncatedProgram
  | .add, k => k == .invalidRegisterIndex || k == .truncatedProgram
  | .multiply, k => k == .invalidRegisterIndex || k == .truncatedProgram
  | .jumpAbsolute, k => k == .invalidRegisterIndex || k == .truncatedProgram
  | .jumpForward, k => k == .invalidRegisterIndex || k == .truncatedProgram
  | .compareEqual, k => k == .invalidRegisterIndex || k == .truncatedProgram
  | .jumpIfEqual, k => k == .invalidRegisterIndex || k == .truncatedProgram
  | .jumpIfNotEqual, k => k == .invalidRegisterIndex || k == .truncatedProgram

/-- The "registers written" column of 10_state.md R15, as the number in the destination's byte. -/
def destination : Instr → Option Nat
  | .load r _ => some r.toNat
  | .add _ _ d => some d.toNat
  | .multiply _ _ d => some d.toNat
  | .divide _ _ d => some d.toNat
  | .jumpAbsolute _ => none
  | .jumpForward _ => none
  | .jumpBackward _ => none
  | .compareEqual _ _ => none
  | .jumpIfEqual _ => none
  | .jumpIfNotEqual _ => none
  | .halt => none
  | .noOp => none
  | .illegal _ => none

/-- The "registers read" column of 10_state.md R15, as the numbers in the source bytes. -/
def sources : Instr → List Nat
  | .load _ _ => []
  | .add a b _ => [a.toNat, b.toNat]
  | .multiply a b _ => [a.toNat, b.toNat]
  | .divide a b _ => [a.toNat, b.toNat]
  | .jumpAbsolute r => [r.toNat]
  | .jumpForward r => [r.toNat]
  | .jumpBackward r => [r.toNat]
  | .compareEqual a b => [a.toNat, b.toNat]
  | .jumpIfEqual r => [r.toNat]
  | .jumpIfNotEqual r => [r.toNat]
  | .halt => []
  | .noOp => []
  | .illegal _ => []

/-- The five instructions that may assign `pc` (30_encoding.md R45). -/
def isJump : Opcode → Bool
  | .jumpAbsolute => true
  | .jumpForward => true
  | .jumpBackward => true
  | .jumpIfEqual => true
  | .jumpIfNotEqual => true
  | .halt => false
  | .load => false
  | .add => false
  | .multiply => false
  | .divide => false
  | .compareEqual => false
  | .noOp => false
  | .illegal => false

/-- The two instructions that read `flag` (10_state.md R22). -/
def readsFlag : Opcode → Bool
  | .jumpIfEqual => true
  | .jumpIfNotEqual => true
  | .halt => false
  | .load => false
  | .add => false
  | .multiply => false
  | .divide => false
  | .jumpAbsolute => false
  | .jumpForward => false
  | .jumpBackward => false
  | .compareEqual => false
  | .noOp => false
  | .illegal => false

end Sys2Proof.Machine
end

