-- ==== Sys2Proof/Certificates/Slice0/Obligations.lean ====
section
/-! DEFINITION. The statements for the provers. `exec` runs with `pc` past the opcode byte, so `s.pc` is `A + 1` in the
statements about `exec` and `A` in those about `step`. A clause that rests on one of the spec's own decisions names it
(D<n> of 92_eei_decisions.md). -/

open Sys2Proof Sys2Proof.Machine

/-! ### Decoding -/

/-- R49: the opcode map. -/
def Obligations.OpcodeBytesFollowTheMap : Prop :=
  decodeOpcode 0 = .halt ∧ decodeOpcode 1 = .load ∧ decodeOpcode 2 = .add ∧ decodeOpcode 3 = .multiply ∧
  decodeOpcode 4 = .divide ∧ decodeOpcode 5 = .jumpAbsolute ∧ decodeOpcode 6 = .jumpForward ∧
  decodeOpcode 7 = .jumpBackward ∧ decodeOpcode 8 = .compareEqual ∧ decodeOpcode 9 = .jumpIfEqual ∧
  decodeOpcode 10 = .jumpIfNotEqual ∧ decodeOpcode 11 = .noOp ∧
  ∀ b : Byte, 12 ≤ b.toNat → decodeOpcode b = .illegal

/-- The gate-level masks of R50, which the spec derives from R49: bits 7..4 and 3..2 find ILLEGAL, and otherwise bits 3..0
alone select the opcode. -/
def Obligations.HighBitsFindIllegalOpcodes : Prop :=
  (∀ b : Byte, decodeOpcode b = .illegal ↔ b.extractLsb' 4 4 ≠ 0 ∨ b.extractLsb' 2 2 = 3) ∧
  ∀ b c : Byte, decodeOpcode b ≠ .illegal → decodeOpcode c ≠ .illegal → b.extractLsb' 0 4 = c.extractLsb' 0 4 →
    decodeOpcode b = decodeOpcode c

/-- One instruction of each family, its bytes written out from 30_encoding.md. -/
def Obligations.SampleEncodingsDecode : Prop :=
  decode [0x01, 0x05, 0x12, 0x34] = .ok (.load 5 0x1234, []) ∧
  decode [0x02, 0x00, 0x01, 0x02, 0x00] = .ok (.add 0 1 2, [0x00]) ∧
  decode [0x07, 0x1F] = .ok (.jumpBackward 31, []) ∧
  decode [0x08, 0x00, 0x21, 0x0B] = .ok (.compareEqual 0 33, [0x0B]) ∧
  decode [0x0A, 0x03] = .ok (.jumpIfNotEqual 3, []) ∧
  decode [0x0B, 0x00] = .ok (.noOp, [0x00]) ∧
  decode [0xC8, 0x00, 0x00, 0x00] = .ok (.illegal 200, [0x00, 0x00, 0x00])

/-- Decode and encode agree on every instruction that has an encoding, with every register byte from 0 to 255 and every
immediate, whatever bytes follow. -/
def Obligations.DecodeOfEncodeGivesTheInstruction : Prop :=
  ∀ (i : Instr) (rest : List Byte), opcodeOk i = true → decode (encode i ++ rest) = .ok (i, rest)

/-- Whatever the decoder accepts, it is the encoding of what it gives, so no byte of an encoding is dropped. -/
def Obligations.EncodeOfDecodeGivesTheBytes : Prop :=
  ∀ (bs rest : List Byte) (i : Instr), decode bs = .ok (i, rest) → encode i ++ rest = bs ∧ opcodeOk i = true

/-- R45, R53: the lengths, known from the opcode byte alone; the next instruction starts `L(op)` bytes on. The last
clause, that a list shorter than `L(op)` is refused, is the list decoder's own and the model's choice (DESIGN CHOICE, log
entry 21): in the core such an instruction decodes and faults at its missing byte (R57, R60). -/
def Obligations.DecodeTakesTheOpcodesLength : Prop :=
  (opcodeLength .load = 4 ∧ opcodeLength .add = 4 ∧ opcodeLength .multiply = 4 ∧ opcodeLength .divide = 4 ∧
    opcodeLength .jumpAbsolute = 2 ∧ opcodeLength .jumpForward = 2 ∧ opcodeLength .jumpBackward = 2 ∧
    opcodeLength .jumpIfEqual = 2 ∧ opcodeLength .jumpIfNotEqual = 2 ∧ opcodeLength .compareEqual = 3 ∧
    opcodeLength .noOp = 1 ∧ opcodeLength .halt = 1 ∧ opcodeLength .illegal = 1) ∧
  ∀ (b : Byte) (rest : List Byte),
    (opcodeLength (decodeOpcode b) ≤ (b :: rest).length →
      ∃ i, decode (b :: rest) = .ok (i, (b :: rest).drop (opcodeLength (decodeOpcode b))) ∧
        opcodeOf i = decodeOpcode b) ∧
    ((b :: rest).length < opcodeLength (decodeOpcode b) →
      decode (b :: rest) = .error (.operandBytesMissing (decodeOpcode b)))

/-! ### Reset and status -/

/-- The values at creation (R27, R128; the empty program is decision D12), and the first STEP of a core nothing was loaded
into. -/
def Obligations.ResetHoldsTheCreationValues : Prop :=
  (∀ r : Fin 32, State.reset.regs[r] = 0) ∧ State.reset.pc = 0 ∧ State.reset.rem = 0 ∧ State.reset.flag = false ∧
  State.reset.status = .running ∧ State.reset.len = 0 ∧ (∀ a, ∃ f, memRead State.reset a = .error f) ∧
  step State.reset = .next { State.reset with status := .haltedNormal }

/-- The invariant holds of the state after reset. -/
def Obligations.ResetMeetsTheInvariant : Prop := StateInv State.reset

/-- The status codes of R110, which are decision D9. -/
def Obligations.StatusCodesAreDistinctAndNeverSeven : Prop :=
  statusCode .running = 0 ∧ statusCode .haltedNormal = 1 ∧ statusCode (.haltedFault .illegalOpcode) = 2 ∧
  statusCode (.haltedFault .invalidRegisterIndex) = 3 ∧ statusCode (.haltedFault .divisionByZero) = 4 ∧
  statusCode (.haltedFault .truncatedProgram) = 5 ∧ statusCode (.haltedFault .invalidJumpTarget) = 6 ∧
  (∀ a b, statusCode a = statusCode b → a = b) ∧ ∀ a, statusCode a ≠ 7

/-! ### The step -/

/-- R69: a Running step below `LEN` decodes the bytes at `pc`, moves `pc` past the opcode byte and performs the
instruction. An operand byte that the program does not have may be taken to be any byte: it is never used. -/
def Obligations.StepRunsTheDecodedInstruction : Prop :=
  ∀ (s : State) (b0 b1 b2 b3 : Byte), s.status = .running → memRead s s.pc.toNat = .ok b0 →
    ((s.pc + 1).toNat < s.len → memRead s (s.pc + 1).toNat = .ok b1) →
    ((s.pc + 2).toNat < s.len → memRead s (s.pc + 2).toNat = .ok b2) →
    ((s.pc + 3).toNat < s.len → memRead s (s.pc + 3).toNat = .ok b3) →
    step s = exec (decodeBytes b0 b1 b2 b3) { s with pc := s.pc + 1 }

/-- R68: at or past the end of the program a Running step halts normally and changes nothing else. -/
def Obligations.EndOfProgramHaltsNormally : Prop :=
  ∀ s : State, s.status = .running → s.len ≤ s.pc.toNat → step s = .next { s with status := .haltedNormal }

/-- A halted core stays as it is: STEP and RUN change nothing and RESET makes it run (R67, R129; decision D10, log entry
10), and LOAD_PROGRAM leaves its status (R131; decision D11, log entry 11). -/
def Obligations.HaltedCoreStaysHaltedUntilReset : Prop :=
  ∀ s : State, s.status ≠ .running →
    step s = .next s ∧ (∀ n, runFor n s = .next s) ∧
    (∀ limit bytes t, loadProgram limit bytes s = .next t → t.status = s.status) ∧
    (resetCore s).status = .running

/-- Every step goes on, since the core has no fault but its own five and those are states (R77, R109; DEDUCED, log entry
4). And no byte at or above `LEN` plays a part (R32): whatever a memory holds there, a step fetches the same instruction,
or the same fault, and answers the same state but for that memory. -/
def Obligations.EveryStepAnswersANextState : Prop :=
  (∀ s : State, Safe s) ∧
  ∀ (s : State) (m : Memory), (∀ a, a < s.len → Memory.read m a = Memory.read s.mem a) →
    fetch { s with mem := m } = fetch s ∧
    ∀ t : State, step s = .next t → step { s with mem := m } = .next { t with mem := m }

/-- Every step keeps the invariant; with it `pc` never wraps (R20). -/
def Obligations.EveryStepKeepsTheInvariant : Prop :=
  ∀ s t : State, StateInv s → step s = .next t → StateInv t

/-- Every host command keeps the invariant, a RUN of any budget and a LOAD_PROGRAM of any program among them. That an
accepted program has at most 2^32 − 1 bytes is decision D3 (R25, R131; log entry 5), the bound on `pc` rests on D2 and D3
(R20; log entry 16), and the budget is the model's (DESIGN CHOICE, log entry 15; R139). -/
def Obligations.EveryCommandKeepsTheInvariant : Prop :=
  ∀ (limit : Config.ProgLenMax) (c : Command) (s t : State), StateInv s → issue limit c s = .next t → StateInv t

/-- R33: no command but LOAD_PROGRAM changes `LEN` or any byte of the program, and no instruction does. -/
def Obligations.ProgramIsWrittenOnlyByLoadProgram : Prop :=
  (∀ (i : Instr) (s t : State), exec i s = .next t → t.len = s.len ∧ ∀ a, memRead t a = memRead s a) ∧
  ∀ (limit : Config.ProgLenMax) (c : Command) (s t : State), (∀ bytes, c ≠ .loadProgram bytes) →
    issue limit c s = .next t → t.len = s.len ∧ ∀ a, memRead t a = memRead s a

/-- The transitions of R80 in `pc`: a completed instruction that is no jump leaves `A + L`, a normal halt at an opcode
leaves `A + 1`, and a fault leaves `pc` inside or just past the instruction (R18, R19; after a fault decision D8). -/
def Obligations.StepMovesThePcOverConsumedBytes : Prop :=
  ∀ (s t : State) (b : Byte), s.status = .running → memRead s s.pc.toNat = .ok b → step s = .next t →
    (t.status = .running → isJump (decodeOpcode b) = false →
      t.pc = s.pc + BitVec.ofNat 64 (opcodeLength (decodeOpcode b))) ∧
    (t.status = .haltedNormal → t.pc = s.pc + 1) ∧
    (∀ k, t.status = .haltedFault k →
      ∃ n, 1 ≤ n ∧ n ≤ opcodeLength (decodeOpcode b) ∧ t.pc = s.pc + BitVec.ofNat 64 n)

/-- A run ends normally exactly at the end of the program or at a HALT byte (R83, derived by the spec from R68 and R80). -/
def Obligations.NormalHaltsAreTheEndOrHalt : Prop :=
  ∀ s t : State, s.status = .running → step s = .next t →
    (t.status = .haltedNormal ↔ s.len ≤ s.pc.toNat ∨ memRead s s.pc.toNat = .ok 0)

/-! ### Faults -/

/-- An instruction that ends in a fault has written no register, no `rem` and no `flag`, and moved `pc` over at most its
own operand bytes (R77, R78, R119; the `pc` is decision D8). -/
def Obligations.FaultingInstructionsWriteNothing : Prop :=
  ∀ (i : Instr) (s t : State) (k : FaultKind), s.status = .running → exec i s = .next t → t.status = .haltedFault k →
    ∃ n, n < (encode i).length ∧ t = { s with pc := s.pc + BitVec.ofNat 64 n, status := .haltedFault k }

/-- Which operand fault is raised and where it leaves `pc`: the first check that fails, byte by byte in layout order, ahead
of the checks made when the effect runs (R75, R76, R118; decisions D7 and D8). -/
def Obligations.OperandFaultsComeInByteOrder : Prop :=
  ∀ (i : Instr) (s : State), LenInRange s →
    (∀ k n, operandFault i s = some (k, n) →
      exec i s = .next { s with pc := s.pc + BitVec.ofNat 64 n, status := .haltedFault k }) ∧
    (operandFault i s = none → s.status = .running → ∀ t k, exec i s = .next t → t.status = .haltedFault k →
      k = .illegalOpcode ∨ k = .divisionByZero ∨ k = .invalidJumpTarget)

/-- Which instruction can raise which fault: the table of R116, which the spec derives from the instruction rules. -/
def Obligations.FaultKindsFollowTheTable : Prop :=
  ∀ (i : Instr) (s t : State) (k : FaultKind), s.status = .running → exec i s = .next t → t.status = .haltedFault k →
    mayRaise (opcodeOf i) k = true

/-- R70, R111: an ILLEGAL byte raises IllegalOpcode with `pc` one past it, and nothing else changes. -/
def Obligations.IllegalBytesRaiseIllegalOpcode : Prop :=
  (∀ (b : Byte) (s : State), exec (.illegal b) s = .next { s with status := .haltedFault .illegalOpcode }) ∧
  ∀ (s : State) (b : Byte), s.status = .running → memRead s s.pc.toNat = .ok b → 12 ≤ b.toNat →
    step s = .next { s with pc := s.pc + 1, status := .haltedFault .illegalOpcode }

/-- DIVIDE by a register that holds 0 raises DivisionByZero after its operands, writes nothing, and is the only source of
that fault (R113; its place after the operand checks is decision D7, its `pc` decision D8). -/
def Obligations.DivideByZeroRaisesAndWritesNothing : Prop :=
  (∀ (s : State) (a b d : Fin 32), Readable 3 s → s.regs[b] = 0 →
    exec (.divide (regByte a) (regByte b) (regByte d)) s =
      .next { s with pc := s.pc + 3, status := .haltedFault .divisionByZero }) ∧
  ∀ (i : Instr) (s t : State), s.status = .running → exec i s = .next t → t.status = .haltedFault .divisionByZero →
    ∃ a b d : Fin 32, i = .divide (regByte a) (regByte b) (regByte d) ∧ s.regs[b] = 0

/-- JUMP_BACKWARD past offset 0 raises InvalidJumpTarget, and nothing else does: a target beyond the program is no fault
(R115; the unsigned reading is decision D4, the `pc` decision D8). -/
def Obligations.BackwardUnderflowRaisesInvalidJumpTarget : Prop :=
  (∀ (s : State) (r : Fin 32), Readable 1 s → (s.pc + 1).toNat < s.regs[r].toNat →
    exec (.jumpBackward (regByte r)) s =
      .next { s with pc := s.pc + 1, status := .haltedFault .invalidJumpTarget }) ∧
  ∀ (i : Instr) (s t : State), s.status = .running → exec i s = .next t → t.status = .haltedFault .invalidJumpTarget →
    ∃ r : Fin 32, i = .jumpBackward (regByte r) ∧ (s.pc + 1).toNat < s.regs[r].toNat

/-! ### What each instruction does -/

/-- LOAD writes the zero-extended immediate, a value from 0 to 65535, and nothing else (R84), for every register, `x[0]`
among them. Its operand faults stand in `OperandFaultsComeInByteOrder`. -/
def Obligations.LoadWritesTheUnsignedImmediate : Prop :=
  ∀ (s : State) (r : Fin 32) (imm : BitVec 16), Readable 3 s →
    ∃ v : Word, v.toInt = imm.toNat ∧
      exec (.load (regByte r) imm) s = .next { s with regs := s.regs.set r v, pc := s.pc + 3 }

/-- R48: LOAD's third byte is bits 15..8 of the immediate and its fourth bits 7..0, and the value is never negative. -/
def Obligations.LoadImmediateIsBigEndianUnsigned : Prop :=
  ∀ (s : State) (r : Fin 32) (hi lo : Byte), s.status = .running → s.pc.toNat + 4 ≤ s.len →
    memRead s s.pc.toNat = .ok 1 → memRead s (s.pc + 1).toNat = .ok (regByte r) →
    memRead s (s.pc + 2).toNat = .ok hi → memRead s (s.pc + 3).toNat = .ok lo →
    ∃ t : State, step s = .next t ∧ t.regs[r].toInt = hi.toNat * 256 + lo.toNat

/-- R88: ADD and MULTIPLY compute the exact signed sum or product and reduce it modulo 2^32 into the `i32` range; overflow
faults nothing and is recorded nowhere. The sources are read before the destination is written, whichever coincide. -/
def Obligations.AddAndMultiplyWrapTheExactResult : Prop :=
  ∀ (s : State) (a b d : Fin 32), Readable 3 s →
    (∃ v : Word, v.toInt = (s.regs[a].toInt + s.regs[b].toInt).bmod (2 ^ 32) ∧
      exec (.add (regByte a) (regByte b) (regByte d)) s =
        .next { s with regs := s.regs.set d v, pc := s.pc + 3 }) ∧
    (∃ v : Word, v.toInt = (s.regs[a].toInt * s.regs[b].toInt).bmod (2 ^ 32) ∧
      exec (.multiply (regByte a) (regByte b) (regByte d)) s =
        .next { s with regs := s.regs.set d v, pc := s.pc + 3 })

/-- DIVIDE by a non-zero register: `n = q * dv + r` with `|r| < |dv|` and the sign of `r` that of `n`, the quotient to the
destination and the remainder's pattern to `rem` (R87, R89; the pattern is decision D5, the wrapped quotient of −2^31 by −1
decision D6). -/
def Obligations.DivideWritesQuotientAndRemainder : Prop :=
  ∀ (s : State) (a b d : Fin 32), Readable 3 s → s.regs[b] ≠ 0 →
    ∃ q r : Int, s.regs[a].toInt = q * s.regs[b].toInt + r ∧ r.natAbs < s.regs[b].toInt.natAbs ∧
      (r = 0 ∨ r.sign = s.regs[a].toInt.sign) ∧
      exec (.divide (regByte a) (regByte b) (regByte d)) s =
        .next { s with regs := s.regs.set d (BitVec.ofInt 32 q), rem := BitVec.ofInt 32 r, pc := s.pc + 3 }

/-- −2^31 by −1 gives −2^31 and remainder 0 without a fault (R90, decision D6). -/
def Obligations.DivideOverflowWraps : Prop :=
  ∀ (s : State) (a b d : Fin 32), Readable 3 s → s.regs[a].toInt = -2147483648 → s.regs[b].toInt = -1 →
    exec (.divide (regByte a) (regByte b) (regByte d)) s =
      .next { s with regs := s.regs.set d 0x80000000, rem := 0, pc := s.pc + 3 }

/-- The three ALU instructions are the native 32-bit two's-complement operations on every operand (the property the spec
quotes under R88; for DIVIDE decisions D5 and D6). -/
def Obligations.AluIsNativeTwosComplement : Prop :=
  ∀ (s : State) (a b d : Fin 32), Readable 3 s →
    exec (.add (regByte a) (regByte b) (regByte d)) s =
      .next { s with regs := s.regs.set d (s.regs[a] + s.regs[b]), pc := s.pc + 3 } ∧
    exec (.multiply (regByte a) (regByte b) (regByte d)) s =
      .next { s with regs := s.regs.set d (s.regs[a] * s.regs[b]), pc := s.pc + 3 } ∧
    (s.regs[b] ≠ 0 → exec (.divide (regByte a) (regByte b) (regByte d)) s =
      .next { s with
        regs := s.regs.set d (s.regs[a].sdiv s.regs[b])
        rem := s.regs[a].srem s.regs[b]
        pc := s.pc + 3 })

/-- JUMP_ABSOLUTE sets `pc` to the register's unsigned value and nothing else, and a target at or beyond `LEN` ends the run
normally on the next step (R94, R97; the unsigned reading is decision D4). -/
def Obligations.JumpAbsoluteGoesToTheRegister : Prop :=
  ∀ (s : State) (r : Fin 32), Readable 1 s →
    ∃ target : Offset, target.toNat = s.regs[r].toNat ∧
      exec (.jumpAbsolute (regByte r)) s = .next { s with pc := target } ∧
      (s.status = .running → s.len ≤ s.regs[r].toNat →
        step { s with pc := target } = .next { s with pc := target, status := .haltedNormal })

/-- JUMP_FORWARD adds the register's unsigned value to the position after the instruction, exactly, and changes nothing
else (R95, R20; the unsigned reading is decision D4). -/
def Obligations.JumpForwardAddsFromTheNextInstruction : Prop :=
  ∀ (s : State) (r : Fin 32), LenInRange s → Readable 1 s →
    ∃ target : Offset, target.toNat = s.pc.toNat + 1 + s.regs[r].toNat ∧
      exec (.jumpForward (regByte r)) s = .next { s with pc := target }

/-- JUMP_BACKWARD subtracts the register's unsigned value from the position after the instruction whenever the result is not
below 0, and changes nothing else (R96; the unsigned reading is decision D4, the base is the spec's inference from R19). -/
def Obligations.JumpBackwardSubtractsFromTheNextInstruction : Prop :=
  ∀ (s : State) (r : Fin 32), LenInRange s → Readable 1 s → s.regs[r].toNat ≤ s.pc.toNat + 1 →
    ∃ target : Offset, target.toNat + s.regs[r].toNat = s.pc.toNat + 1 ∧
      exec (.jumpBackward (regByte r)) s = .next { s with pc := target }

/-- COMPARE_EQUAL writes `flag`, true or false, to whether the two registers hold equal values, consumes two bytes, and
changes nothing else (R101). -/
def Obligations.CompareEqualWritesTheFlag : Prop :=
  ∀ (s : State) (a b : Fin 32), Readable 2 s →
    ∃ f : Bool, (f = true ↔ s.regs[a].toInt = s.regs[b].toInt) ∧
      exec (.compareEqual (regByte a) (regByte b)) s = .next { s with flag := f, pc := s.pc + 2 }

/-- The conditional jumps go to the register's unsigned value when `flag` is theirs, otherwise on to the next instruction,
and change nothing else; `flag` is not cleared (R102, R103; the unsigned reading is decision D4). -/
def Obligations.ConditionalJumpsFollowTheFlag : Prop :=
  ∀ (s : State) (r : Fin 32), Readable 1 s →
    ∃ target : Offset, target.toNat = s.regs[r].toNat ∧
      exec (.jumpIfEqual (regByte r)) s = .next { s with pc := if s.flag then target else s.pc + 1 } ∧
      exec (.jumpIfNotEqual (regByte r)) s = .next { s with pc := if s.flag then s.pc + 1 else target }

/-- R106: NO_OP changes nothing besides the opcode-byte advance; at the last byte of the program the next step halts
normally. -/
def Obligations.NoOpOnlyAdvances : Prop :=
  encode .noOp = [0x0B] ∧ (∀ s : State, exec .noOp s = .next s) ∧
  ∀ s : State, s.status = .running → memRead s s.pc.toNat = .ok 0x0B →
    step s = .next { s with pc := s.pc + 1 } ∧
    (LenInRange s → s.pc.toNat + 1 = s.len →
      step { s with pc := s.pc + 1 } = .next { s with pc := s.pc + 1, status := .haltedNormal })

/-- HALT ends the run normally with `pc` just past its byte and changes nothing else (R107). That no later STEP or RUN
does anything and that RESET gives Running is decision D10 (R67, R129; log entry 10). -/
def Obligations.HaltEndsTheRunNormally : Prop :=
  encode .halt = [0x00] ∧ (∀ s : State, exec .halt s = .next { s with status := .haltedNormal }) ∧
  ∀ s : State, s.status = .running → memRead s s.pc.toNat = .ok 0x00 →
    ∃ t : State, step s = .next t ∧ t = { s with pc := s.pc + 1, status := .haltedNormal } ∧
      step t = .next t ∧ (∀ n, runFor n t = .next t) ∧ (resetCore t).status = .running

/-! ### What instructions may touch -/

/-- The registers written (the table of R15; its row on the conditional jumps rests on decision D16): an instruction
changes no register but its destination. -/
def Obligations.OnlyTheDestinationRegisterChanges : Prop :=
  ∀ (i : Instr) (s t : State), exec i s = .next t →
    ∀ r : Fin 32, destination i ≠ some r.val → t.regs[r] = s.regs[r]

/-- The registers read (the table of R15; D16 as above): a register that is no source makes no difference to anything but
itself. -/
def Obligations.OnlySourceRegistersMatter : Prop :=
  ∀ (i : Instr) (s t u : State) (r : Fin 32) (v : Word), r.val ∉ sources i → exec i s = .next t →
    exec i { s with regs := s.regs.set r v } = .next u →
    u.pc = t.pc ∧ u.rem = t.rem ∧ u.flag = t.flag ∧ u.status = t.status ∧ u.len = t.len ∧ u.mem = t.mem ∧
    ∀ q : Fin 32, q ≠ r → u.regs[q] = t.regs[q]

/-- R22: only COMPARE_EQUAL writes `flag`, and a fault never does; only the conditional jumps read it; at creation and after
RESET it is false. -/
def Obligations.FlagIsWrittenByCompareAndReadByBranches : Prop :=
  (∀ (i : Instr) (s t : State), exec i s = .next t → opcodeOf i ≠ .compareEqual → t.flag = s.flag) ∧
  (∀ (i : Instr) (s t : State) (k : FaultKind), s.status = .running → exec i s = .next t → t.status = .haltedFault k →
    t.flag = s.flag) ∧
  (∀ (i : Instr) (s t u : State) (f : Bool), readsFlag (opcodeOf i) = false → exec i s = .next t →
    exec i { s with flag := f } = .next u → u = { t with flag := u.flag } ∧
      (opcodeOf i = .compareEqual → t.status = .running → s.status = .running → u.flag = t.flag)) ∧
  State.reset.flag = false ∧ (∀ s : State, (resetCore s).flag = false) ∧
  ∀ s : State, readPort .flag s = .bit s.flag

/-- R104: STEP leaves `flag` as it is unless it completes a COMPARE_EQUAL, RUN unless one of its own steps completes one,
and LOAD_PROGRAM always; so do faults and every other instruction. -/
def Obligations.FlagPersistsUntilCompareOrReset : Prop :=
  (∀ s t : State, step s = .next t → t.flag ≠ s.flag →
    memRead s s.pc.toNat = .ok 8 ∧ s.status = .running ∧ t.status = .running) ∧
  (∀ (n : Nat) (s t : State), runFor n s = .next t → t.flag ≠ s.flag →
    ∃ m u v, m < n ∧ runFor m s = .next u ∧ u.status = .running ∧ memRead u u.pc.toNat = .ok 8 ∧
      step u = .next v ∧ v.status = .running) ∧
  ∀ (limit : Config.ProgLenMax) (bytes : List Byte) (s t : State), loadProgram limit bytes s = .next t →
    t.flag = s.flag

/-- `rem` is written by a DIVIDE that completes and by RESET, and by nothing else (R21; its content is decision D5). -/
def Obligations.OnlyCompletedDivideWritesRem : Prop :=
  (∀ (i : Instr) (s t : State), exec i s = .next t → t.rem ≠ s.rem →
    ∃ a b d : Fin 32, i = .divide (regByte a) (regByte b) (regByte d) ∧ s.regs[b] ≠ 0 ∧ t.status = s.status) ∧
  (∀ (limit : Config.ProgLenMax) (bytes : List Byte) (s t : State), loadProgram limit bytes s = .next t →
    t.rem = s.rem) ∧
  State.reset.rem = 0 ∧ ∀ s : State, (resetCore s).rem = 0

/-- No instruction reads `rem` (R21; that only the host does is decision D1): its value makes no difference to anything but
itself. -/
def Obligations.NoInstructionReadsRem : Prop :=
  ∀ (s t u : State) (v : Word), step s = .next t → step { s with rem := v } = .next u →
    u = { t with rem := u.rem } ∧ (u.rem = v ∨ u.rem = t.rem)

/-! ### Host commands -/

/-- RESET, from any state: every element at its value of R27 and the program as it was (R129, R130; that the status becomes
Running is decision D10). -/
def Obligations.ResetCommandClearsAllButTheProgram : Prop :=
  ∀ (limit : Config.ProgLenMax) (s : State), ∃ t : State, issue limit .reset s = .next t ∧
    (∀ r : Fin 32, t.regs[r] = 0) ∧ t.pc = 0 ∧ t.rem = 0 ∧ t.flag = false ∧ t.status = .running ∧
    t.len = s.len ∧ ∀ a, memRead t a = memRead s a

/-- LOAD_PROGRAM replaces the program by exactly the given bytes, sets `LEN` to their count and changes nothing else; one
longer than `PROG_LEN_MAX` is not accepted (R131; decisions D3 and D11). -/
def Obligations.LoadProgramReplacesTheProgram : Prop :=
  ∀ (limit : Config.ProgLenMax) (bytes : List Byte) (s : State),
    (bytes.length ≤ limit.val → ∃ t : State, loadProgram limit bytes s = .next t ∧ t.len = bytes.length ∧
      (∀ (a : Nat) (h : a < bytes.length), memRead t a = .ok bytes[a]) ∧
      (∀ a, bytes.length ≤ a → memRead t a = .error (.programReadPastLen a)) ∧
      t.regs = s.regs ∧ t.pc = s.pc ∧ t.rem = s.rem ∧ t.flag = s.flag ∧ t.status = s.status) ∧
    (limit.val < bytes.length → loadProgram limit bytes s = .refused (.programTooLong bytes.length))

/-- RUN, which leaves its loop as soon as the core halts, is STEP repeated: within a budget of `n` it answers what `n` STEPs
answer (R66, R67; decision D10). -/
def Obligations.RunIsRepeatedStep : Prop :=
  ∀ (n : Nat) (s : State), runFor n s = Host.Core.run core n s

/-- RUN returns only halted states, and in one at most (R66). -/
def Obligations.RunReturnsOneHaltedState : Prop :=
  (∀ s t : State, RunReturns s t → t.status ≠ .running) ∧
  (∀ s t u : State, RunReturns s t → RunReturns s u → t = u) ∧
  ∀ s t u : State, s.status = .running → step s = .next t → (RunReturns s u ↔ RunReturns t u)
end

