-- ==== Sys2Proof/Laws/Memory.lean ====
section
/-! SUPPORT. What the program buffer's operations do: read after write, read after load, and the canonical form, which
every one of them keeps. -/

namespace Sys2Proof.Machine

theorem Memory.read_eq_zero_of_not_listed (m : Memory) (a : Nat) (h : ∀ c ∈ m, c.1 ≠ a) : Memory.read m a = 0#8 := by
  induction m with
  | nil => rfl
  | cons c m ih =>
    have hc : c.1 ≠ a := h c (by simp)
    simp only [Memory.read, if_neg hc]
    exact ih fun d hd => h d (by simp [hd])

/-- Reading back the byte written. -/
theorem Memory.read_write_same (m : Memory) (a : Nat) (v : Byte) (h : Memory.wf m) :
    Memory.read (Memory.write m a v) a = v := by
  induction m with
  | nil => by_cases hv : v = 0#8 <;> simp [Memory.write, Memory.read, hv]
  | cons c m ih =>
    obtain ⟨b, w⟩ := c
    have hrest : ∀ d ∈ m, b < d.1 := fun d hd => (List.pairwise_cons.1 h.1).1 d hd
    have hm : Memory.wf m := ⟨(List.pairwise_cons.1 h.1).2, fun d hd => h.2 d (by simp [hd])⟩
    rcases Nat.lt_trichotomy a b with hab | hab | hab
    · by_cases hv : v = 0#8
      · subst hv
        simp only [Memory.write, if_pos hab, if_true]
        refine Memory.read_eq_zero_of_not_listed _ _ fun d hd => ?_
        rcases List.mem_cons.1 hd with rfl | hd
        · exact (Nat.ne_of_lt hab).symm
        · have := hrest d hd; omega
      · simp [Memory.write, Memory.read, hab, hv]
    · subst hab
      by_cases hv : v = 0#8
      · subst hv
        simp only [Memory.write, if_neg (Nat.lt_irrefl a), if_true]
        exact Memory.read_eq_zero_of_not_listed _ _ fun d hd => by have := hrest d hd; omega
      · simp [Memory.write, Memory.read, hv]
    · simp [Memory.write, Memory.read, Nat.not_lt.2 (Nat.le_of_lt hab), (Nat.ne_of_lt hab).symm,
        Nat.ne_of_lt hab, ih hm]

/-- A write leaves every other offset alone. -/
theorem Memory.read_write_other (m : Memory) (a x : Nat) (v : Byte) (h : a ≠ x) :
    Memory.read (Memory.write m a v) x = Memory.read m x := by
  induction m with
  | nil => by_cases hv : v = 0#8 <;> simp [Memory.write, Memory.read, hv, h]
  | cons c m ih =>
    obtain ⟨b, w⟩ := c
    by_cases hab : a < b
    · by_cases hv : v = 0#8 <;> simp [Memory.write, Memory.read, hab, hv, h]
    · by_cases hb : a = b
      · subst hb
        by_cases hv : v = 0#8 <;> simp [Memory.write, Memory.read, hv, h]
      · simp [Memory.write, Memory.read, hab, hb, ih]

theorem Memory.mem_write (m : Memory) (a : Nat) (v : Byte) (c : Host.Cell) (hc : c ∈ Memory.write m a v) :
    c = (a, v) ∧ v ≠ 0#8 ∨ c ∈ m := by
  induction m with
  | nil =>
    by_cases hv : v = 0#8
    · simp [Memory.write, hv] at hc
    · simp only [Memory.write, if_neg hv, List.mem_singleton] at hc
      exact Or.inl ⟨hc, hv⟩
  | cons d m ih =>
    obtain ⟨b, w⟩ := d
    simp only [Memory.write] at hc
    split at hc
    · split at hc
      · exact Or.inr hc
      · rcases List.mem_cons.1 hc with rfl | hc
        · exact Or.inl ⟨rfl, ‹_›⟩
        · exact Or.inr hc
    · split at hc
      · split at hc
        · exact Or.inr (by simp [hc])
        · rcases List.mem_cons.1 hc with rfl | hc
          · exact Or.inl ⟨rfl, ‹_›⟩
          · exact Or.inr (by simp [hc])
      · rcases List.mem_cons.1 hc with rfl | hc
        · exact Or.inr (by simp)
        · rcases ih hc with h | h
          · exact Or.inl h
          · exact Or.inr (by simp [h])

/-- A write keeps the canonical form. -/
theorem Memory.wf_write (m : Memory) (a : Nat) (v : Byte) (h : Memory.wf m) : Memory.wf (Memory.write m a v) := by
  refine ⟨?_, fun c hc => ?_⟩
  · induction m with
    | nil => by_cases hv : v = 0#8 <;> simp [Memory.write, hv]
    | cons d m ih =>
      obtain ⟨b, w⟩ := d
      have hp := List.pairwise_cons.1 h.1
      have hm : Memory.wf m := ⟨hp.2, fun c hc => h.2 c (by simp [hc])⟩
      simp only [Memory.write]
      split
      · split
        · exact h.1
        · refine List.pairwise_cons.2 ⟨fun c hc => ?_, h.1⟩
          rcases List.mem_cons.1 hc with rfl | hc
          · assumption
          · have := hp.1 c hc; simp only at this ⊢; omega
      · split
        · split
          · exact hp.2
          · refine List.pairwise_cons.2 ⟨fun c hc => ?_, hp.2⟩
            have := hp.1 c hc; simp only at this ⊢; omega
        · refine List.pairwise_cons.2 ⟨fun c hc => ?_, ih hm⟩
          rcases Memory.mem_write m a v c hc with ⟨rfl, _⟩ | hc
          · simp only; omega
          · exact hp.1 c hc
  · rcases Memory.mem_write m a v c hc with ⟨rfl, hv⟩ | hc
    · exact hv
    · exact h.2 c hc

/-- Writing consecutive bytes keeps the canonical form. -/
theorem Memory.wf_writeBytes (vs : List Byte) (m : Memory) (a : Nat) (h : Memory.wf m) :
    Memory.wf (Memory.writeBytes m a vs) := by
  induction vs generalizing m a with
  | nil => exact h
  | cons v vs ih => exact ih _ _ (Memory.wf_write m a v h)

theorem Memory.mem_ofBytes (vs : List Byte) (a : Nat) (c : Host.Cell) (hc : c ∈ Memory.ofBytes a vs) :
    a ≤ c.1 ∧ c.1 < a + vs.length ∧ c.2 ≠ 0#8 := by
  induction vs generalizing a with
  | nil => simp [Memory.ofBytes] at hc
  | cons v vs ih =>
    simp only [Memory.ofBytes] at hc
    split at hc
    · have := ih (a + 1) hc
      exact ⟨by omega, by simp only [List.length_cons]; omega, this.2.2⟩
    · rcases List.mem_cons.1 hc with rfl | hc
      · exact ⟨Nat.le_refl _, by simp only [List.length_cons]; omega, ‹_›⟩
      · have := ih (a + 1) hc
        exact ⟨by omega, by simp only [List.length_cons]; omega, this.2.2⟩

/-- A loaded program is in canonical form. -/
theorem Memory.wf_ofBytes (vs : List Byte) (a : Nat) : Memory.wf (Memory.ofBytes a vs) := by
  refine ⟨?_, fun c hc => (Memory.mem_ofBytes vs a c hc).2.2⟩
  induction vs generalizing a with
  | nil => exact List.Pairwise.nil
  | cons v vs ih =>
    simp only [Memory.ofBytes]
    split
    · exact ih (a + 1)
    · exact List.pairwise_cons.2 ⟨fun c hc => (Memory.mem_ofBytes vs (a + 1) c hc).1, ih (a + 1)⟩

/-- A loaded program holds the bytes it was loaded with. -/
theorem Memory.read_ofBytes (vs : List Byte) (a k : Nat) : Memory.read (Memory.ofBytes a vs) (a + k) = vs.getD k 0#8 := by
  induction vs generalizing a k with
  | nil => simp [Memory.ofBytes, Memory.read]
  | cons v vs ih =>
    cases k with
    | zero =>
      by_cases hv : v = 0#8
      · subst hv
        simp only [Memory.ofBytes, if_true]
        exact Memory.read_eq_zero_of_not_listed _ _ fun c hc => by
          have := (Memory.mem_ofBytes vs (a + 1) c hc).1; omega
      · simp [Memory.ofBytes, Memory.read, hv]
    | succ k =>
      have hk : a + (k + 1) = a + 1 + k := by omega
      rw [hk, Memory.ofBytes]
      by_cases hv : v = 0#8
      · simp only [hv, if_true, ih (a + 1) k, List.getD_cons_succ]
      · have ha : a ≠ a + 1 + k := by omega
        simp only [hv, if_false, Memory.read, if_neg ha, ih (a + 1) k, List.getD_cons_succ]

/-! ### `memRead` -/

theorem memRead_of_lt (s : State) (a : Nat) (h : a < s.len) : memRead s a = .ok (Memory.read s.mem a) := if_pos h

theorem memRead_of_ge (s : State) (a : Nat) (h : s.len ≤ a) : memRead s a = .error (.programReadPastLen a) :=
  if_neg (Nat.not_lt.2 h)

/-- A byte that can be read lies below `LEN` (20_memory.md R32). -/
theorem memRead_ok (s : State) (a : Nat) (b : Byte) (h : memRead s a = .ok b) :
    a < s.len ∧ b = Memory.read s.mem a := by
  by_cases ha : a < s.len
  · rw [memRead_of_lt s a ha] at h
    exact ⟨ha, (Except.ok.inj h).symm⟩
  · rw [memRead_of_ge s a (Nat.not_lt.1 ha)] at h
    cases h

/-- What a read answers depends on the program alone. -/
theorem memRead_congr (s t : State) (hl : t.len = s.len) (hm : t.mem = s.mem) (a : Nat) : memRead t a = memRead s a := by
  simp [memRead, hl, hm]

/-- The reset memory has the canonical form. -/
theorem reset_mem_wf : Memory.wf State.reset.mem := by decide

end Sys2Proof.Machine
end

