-- ==== Sys2Proof/Laws/State.lean ====
section
/-! SUPPORT. One lemma per field per update of the state, so that no proof unfolds a record update. -/

namespace Sys2Proof.Machine

/-! ### writeX -/

@[simp] theorem writeX_regs (i : Fin 32) (v : Word) (s : State) : (writeX i v s).regs = s.regs.set i v := rfl
@[simp] theorem writeX_pc (i : Fin 32) (v : Word) (s : State) : (writeX i v s).pc = s.pc := rfl
@[simp] theorem writeX_rem (i : Fin 32) (v : Word) (s : State) : (writeX i v s).rem = s.rem := rfl
@[simp] theorem writeX_flag (i : Fin 32) (v : Word) (s : State) : (writeX i v s).flag = s.flag := rfl
@[simp] theorem writeX_status (i : Fin 32) (v : Word) (s : State) : (writeX i v s).status = s.status := rfl
@[simp] theorem writeX_len (i : Fin 32) (v : Word) (s : State) : (writeX i v s).len = s.len := rfl
@[simp] theorem writeX_mem (i : Fin 32) (v : Word) (s : State) : (writeX i v s).mem = s.mem := rfl

/-! ### writeRem -/

@[simp] theorem writeRem_regs (v : Word) (s : State) : (writeRem v s).regs = s.regs := rfl
@[simp] theorem writeRem_pc (v : Word) (s : State) : (writeRem v s).pc = s.pc := rfl
@[simp] theorem writeRem_rem (v : Word) (s : State) : (writeRem v s).rem = v := rfl
@[simp] theorem writeRem_flag (v : Word) (s : State) : (writeRem v s).flag = s.flag := rfl
@[simp] theorem writeRem_status (v : Word) (s : State) : (writeRem v s).status = s.status := rfl
@[simp] theorem writeRem_len (v : Word) (s : State) : (writeRem v s).len = s.len := rfl
@[simp] theorem writeRem_mem (v : Word) (s : State) : (writeRem v s).mem = s.mem := rfl

/-! ### writeFlag -/

@[simp] theorem writeFlag_regs (b : Bool) (s : State) : (writeFlag b s).regs = s.regs := rfl
@[simp] theorem writeFlag_pc (b : Bool) (s : State) : (writeFlag b s).pc = s.pc := rfl
@[simp] theorem writeFlag_rem (b : Bool) (s : State) : (writeFlag b s).rem = s.rem := rfl
@[simp] theorem writeFlag_flag (b : Bool) (s : State) : (writeFlag b s).flag = b := rfl
@[simp] theorem writeFlag_status (b : Bool) (s : State) : (writeFlag b s).status = s.status := rfl
@[simp] theorem writeFlag_len (b : Bool) (s : State) : (writeFlag b s).len = s.len := rfl
@[simp] theorem writeFlag_mem (b : Bool) (s : State) : (writeFlag b s).mem = s.mem := rfl

/-! ### jumpTo -/

@[simp] theorem jumpTo_regs (target : Offset) (s : State) : (jumpTo target s).regs = s.regs := rfl
@[simp] theorem jumpTo_pc (target : Offset) (s : State) : (jumpTo target s).pc = target := rfl
@[simp] theorem jumpTo_rem (target : Offset) (s : State) : (jumpTo target s).rem = s.rem := rfl
@[simp] theorem jumpTo_flag (target : Offset) (s : State) : (jumpTo target s).flag = s.flag := rfl
@[simp] theorem jumpTo_status (target : Offset) (s : State) : (jumpTo target s).status = s.status := rfl
@[simp] theorem jumpTo_len (target : Offset) (s : State) : (jumpTo target s).len = s.len := rfl
@[simp] theorem jumpTo_mem (target : Offset) (s : State) : (jumpTo target s).mem = s.mem := rfl

/-! ### advance -/

@[simp] theorem advance_regs (s : State) : (advance s).regs = s.regs := rfl
@[simp] theorem advance_pc (s : State) : (advance s).pc = s.pc + 1 := rfl
@[simp] theorem advance_rem (s : State) : (advance s).rem = s.rem := rfl
@[simp] theorem advance_flag (s : State) : (advance s).flag = s.flag := rfl
@[simp] theorem advance_status (s : State) : (advance s).status = s.status := rfl
@[simp] theorem advance_len (s : State) : (advance s).len = s.len := rfl
@[simp] theorem advance_mem (s : State) : (advance s).mem = s.mem := rfl

/-! ### raise -/

@[simp] theorem raise_regs (k : FaultKind) (s : State) : (raise k s).regs = s.regs := rfl
@[simp] theorem raise_pc (k : FaultKind) (s : State) : (raise k s).pc = s.pc := rfl
@[simp] theorem raise_rem (k : FaultKind) (s : State) : (raise k s).rem = s.rem := rfl
@[simp] theorem raise_flag (k : FaultKind) (s : State) : (raise k s).flag = s.flag := rfl
@[simp] theorem raise_status (k : FaultKind) (s : State) : (raise k s).status = .haltedFault k := rfl
@[simp] theorem raise_len (k : FaultKind) (s : State) : (raise k s).len = s.len := rfl
@[simp] theorem raise_mem (k : FaultKind) (s : State) : (raise k s).mem = s.mem := rfl

/-! ### haltNormal -/

@[simp] theorem haltNormal_regs (s : State) : (haltNormal s).regs = s.regs := rfl
@[simp] theorem haltNormal_pc (s : State) : (haltNormal s).pc = s.pc := rfl
@[simp] theorem haltNormal_rem (s : State) : (haltNormal s).rem = s.rem := rfl
@[simp] theorem haltNormal_flag (s : State) : (haltNormal s).flag = s.flag := rfl
@[simp] theorem haltNormal_status (s : State) : (haltNormal s).status = .haltedNormal := rfl
@[simp] theorem haltNormal_len (s : State) : (haltNormal s).len = s.len := rfl
@[simp] theorem haltNormal_mem (s : State) : (haltNormal s).mem = s.mem := rfl

/-! ### setProgram -/

@[simp] theorem setProgram_regs (bytes : List Byte) (s : State) : (setProgram bytes s).regs = s.regs := rfl
@[simp] theorem setProgram_pc (bytes : List Byte) (s : State) : (setProgram bytes s).pc = s.pc := rfl
@[simp] theorem setProgram_rem (bytes : List Byte) (s : State) : (setProgram bytes s).rem = s.rem := rfl
@[simp] theorem setProgram_flag (bytes : List Byte) (s : State) : (setProgram bytes s).flag = s.flag := rfl
@[simp] theorem setProgram_status (bytes : List Byte) (s : State) : (setProgram bytes s).status = s.status := rfl
@[simp] theorem setProgram_len (bytes : List Byte) (s : State) : (setProgram bytes s).len = bytes.length := rfl
@[simp] theorem setProgram_mem (bytes : List Byte) (s : State) : (setProgram bytes s).mem = Memory.ofBytes 0 bytes := rfl

/-! ### resetCore -/

@[simp] theorem resetCore_regs (s : State) : (resetCore s).regs = Vector.replicate 32 0 := rfl
@[simp] theorem resetCore_pc (s : State) : (resetCore s).pc = 0 := rfl
@[simp] theorem resetCore_rem (s : State) : (resetCore s).rem = 0 := rfl
@[simp] theorem resetCore_flag (s : State) : (resetCore s).flag = false := rfl
@[simp] theorem resetCore_status (s : State) : (resetCore s).status = .running := rfl
@[simp] theorem resetCore_len (s : State) : (resetCore s).len = s.len := rfl
@[simp] theorem resetCore_mem (s : State) : (resetCore s).mem = s.mem := rfl

/-! ### Results -/

theorem eq_next_of_nextState? (r : Result) (t : State) (h : nextState? r = some t) : r = .next t := by
  cases r with
  | next s => exact congrArg _ (Option.some.inj h)
  | fault f => cases h
  | refused f => cases h

/-! ### Reading a register -/

theorem readX_eq (s : State) (i : Fin 32) : readX s i = s.regs[i] := rfl

theorem readX_writeX_same (i : Fin 32) (v : Word) (s : State) : readX (writeX i v s) i = v := by
  simp [readX]

theorem readX_writeX_other (i j : Fin 32) (v : Word) (s : State) (h : i ≠ j) :
    readX (writeX i v s) j = readX s j := by
  simp [readX, Fin.val_ne_of_ne h]

end Sys2Proof.Machine
end

