-- ==== Sys2Proof/Laws/Operands.lean ====
section
/-! SUPPORT. What consuming operands can do, said once per primitive and per format. -/

namespace Sys2Proof.Machine

/-- The state after `n` operand bytes were consumed (10_state.md R19). -/
def consumed (n : Nat) (s : State) : State := { s with pc := s.pc + BitVec.ofNat 64 n }

@[simp] theorem consumed_regs (n : Nat) (s : State) : (consumed n s).regs = s.regs := rfl
@[simp] theorem consumed_pc (n : Nat) (s : State) : (consumed n s).pc = s.pc + BitVec.ofNat 64 n := rfl
@[simp] theorem consumed_rem (n : Nat) (s : State) : (consumed n s).rem = s.rem := rfl
@[simp] theorem consumed_flag (n : Nat) (s : State) : (consumed n s).flag = s.flag := rfl
@[simp] theorem consumed_status (n : Nat) (s : State) : (consumed n s).status = s.status := rfl
@[simp] theorem consumed_len (n : Nat) (s : State) : (consumed n s).len = s.len := rfl
@[simp] theorem consumed_mem (n : Nat) (s : State) : (consumed n s).mem = s.mem := rfl

theorem readX_consumed (n : Nat) (s : State) (i : Fin 32) : readX (consumed n s) i = readX s i := rfl

theorem consumed_zero (s : State) : consumed 0 s = s := by simp [consumed]

theorem consumed_consumed (m n : Nat) (s : State) : consumed n (consumed m s) = consumed (m + n) s := by
  simp only [consumed, BitVec.ofNat_add, BitVec.add_assoc]

theorem advance_eq_consumed (s : State) : advance s = consumed 1 s := rfl

/-- The advance of `pc` by at most `n` never lands beyond the exact sum. -/
theorem pc_add_le (p : Offset) (n : Nat) : (p + BitVec.ofNat 64 n).toNat ≤ p.toNat + n := by
  rw [BitVec.toNat_add, BitVec.toNat_ofNat]
  exact Nat.le_trans (Nat.mod_le _ _) (Nat.add_le_add_left (Nat.mod_le _ _) _)

/-- Readable bytes stay readable while they are consumed. -/
theorem readable_consumed (n m : Nat) (s : State) (h : Readable (n + m) s) : Readable m (consumed n s) := by
  have := pc_add_le s.pc n
  simp only [Readable, consumed_pc, consumed_len] at h ⊢
  omega

theorem regByte_toNat (r : Fin 32) : (regByte r).toNat = r.val := by
  simp only [regByte, BitVec.toNat_ofNat]
  omega

/-- Every register byte below 32 is that of a register. -/
theorem regByte_of_lt (b : Byte) (h : b.toNat < 32) : regByte ⟨b.toNat, h⟩ = b := by
  simp [regByte]

/-- A result that is an operand fault after `n` operand bytes. -/
def IsOperandFault (n : Nat) (s : State) (r : Result) : Prop :=
  r = .next (raise .truncatedProgram (consumed n s)) ∨
    ∃ m, n = m + 1 ∧ r = .next (raise .invalidRegisterIndex (consumed n s))

/-! ### The primitives -/

theorem readByte_of_lt (b : Byte) (s : State) (h : s.pc.toNat < s.len) : readByte b s = .got b (consumed 1 s) :=
  if_neg (Nat.not_le.2 h)

theorem readByte_of_ge (b : Byte) (s : State) (h : s.len ≤ s.pc.toNat) :
    readByte b s = .raised (raise .truncatedProgram s) := if_pos h

/-- Everything `readReg` can do (R73). -/
theorem readReg_cases (b : Byte) (s : State) :
    (s.len ≤ s.pc.toNat ∧ readReg b s = .raised (raise .truncatedProgram s)) ∨
    (s.pc.toNat < s.len ∧ 32 ≤ b.toNat ∧ readReg b s = .raised (raise .invalidRegisterIndex (consumed 1 s))) ∨
    (s.pc.toNat < s.len ∧ ∃ r : Fin 32, b = regByte r ∧ readReg b s = .got r (consumed 1 s)) := by
  by_cases hl : s.pc.toNat < s.len
  · by_cases hb : b.toNat < 32
    · exact .inr (.inr ⟨hl, ⟨b.toNat, hb⟩, (regByte_of_lt b hb).symm, by simp [readReg, readByte_of_lt b s hl, hb]⟩)
    · exact .inr (.inl ⟨hl, Nat.not_lt.1 hb, by simp [readReg, readByte_of_lt b s hl, hb]⟩)
  · exact .inl ⟨Nat.not_lt.1 hl, by simp [readReg, readByte_of_ge b s (Nat.not_lt.1 hl)]⟩

theorem readReg_regByte (r : Fin 32) (s : State) (h : Readable 1 s) : readReg (regByte r) s = .got r (consumed 1 s) := by
  simp only [readReg, readByte_of_lt _ s (show s.pc.toNat < s.len by omega), regByte_toNat, dif_pos r.isLt]

theorem imm16OfBytes_high_low (imm : BitVec 16) : imm16OfBytes (imm16High imm) (imm16Low imm) = imm := by
  simp only [imm16OfBytes, imm16High, imm16Low]
  ext i hi
  simp only [BitVec.getElem_append, BitVec.getElem_extractLsb']
  split
  · rw [Nat.zero_add, BitVec.getLsbD_eq_getElem (by omega)]
  · rw [show 8 + (i - 8) = i by omega, BitVec.getLsbD_eq_getElem (by omega)]

/-- Everything `readImm16` can do (R74). -/
theorem readImm16_cases (imm : BitVec 16) (s : State) :
    (s.len ≤ s.pc.toNat ∧ readImm16 imm s = .raised (raise .truncatedProgram s)) ∨
    (s.pc.toNat < s.len ∧ s.len ≤ (s.pc + 1).toNat ∧
      readImm16 imm s = .raised (raise .truncatedProgram (consumed 1 s))) ∨
    (s.pc.toNat < s.len ∧ (s.pc + 1).toNat < s.len ∧ readImm16 imm s = .got imm (consumed 2 s)) := by
  by_cases hl : s.pc.toNat < s.len
  · by_cases hl2 : (s.pc + 1).toNat < s.len
    · refine .inr (.inr ⟨hl, hl2, ?_⟩)
      have h2 : (consumed 1 s).pc.toNat < (consumed 1 s).len := hl2
      simp only [readImm16, readByte_of_lt _ s hl, readByte_of_lt _ _ h2, imm16OfBytes_high_low, consumed_consumed]
    · refine .inr (.inl ⟨hl, Nat.not_lt.1 hl2, ?_⟩)
      have h2 : (consumed 1 s).len ≤ (consumed 1 s).pc.toNat := Nat.not_lt.1 hl2
      simp only [readImm16, readByte_of_lt _ s hl, readByte_of_ge _ _ h2]
  · exact .inl ⟨Nat.not_lt.1 hl, by simp [readImm16, readByte_of_ge _ s (Nat.not_lt.1 hl)]⟩

theorem readImm16_of_readable (imm : BitVec 16) (s : State) (h : Readable 2 s) :
    readImm16 imm s = .got imm (consumed 2 s) := by
  have h1 : (s.pc + 1).toNat ≤ s.pc.toNat + 1 := pc_add_le s.pc 1
  rcases readImm16_cases imm s with ⟨h0, _⟩ | ⟨_, h0, _⟩ | ⟨_, _, h0⟩
  · omega
  · omega
  · exact h0

/-! ### The formats: with every operand readable and valid -/

theorem consumeR_regByte (r : Fin 32) (s : State) (k : Fin 32 → State → Result) (h : Readable 1 s) :
    consumeR (regByte r) s k = k r (consumed 1 s) := by
  simp only [consumeR, readReg_regByte r s h, andThen]

theorem consumeRR_regByte (a b : Fin 32) (s : State) (k : Fin 32 → Fin 32 → State → Result) (h : Readable 2 s) :
    consumeRR (regByte a) (regByte b) s k = k a b (consumed 2 s) := by
  have h1 : Readable 1 s := by omega
  simp only [consumeRR, readReg_regByte a s h1, readReg_regByte b _ (readable_consumed 1 1 s h), andThen, consumed_consumed]

theorem consumeRRR_regByte (a b d : Fin 32) (s : State) (k : Fin 32 → Fin 32 → Fin 32 → State → Result)
    (h : Readable 3 s) : consumeRRR (regByte a) (regByte b) (regByte d) s k = k a b d (consumed 3 s) := by
  have h1 : Readable 1 s := by omega
  have h2 : Readable 1 (consumed 1 s) := readable_consumed 1 1 s (by omega)
  have h3 : Readable 1 (consumed 2 s) := readable_consumed 2 1 s h
  simp only [consumeRRR, readReg_regByte a s h1, readReg_regByte b _ h2, andThen, consumed_consumed,
    readReg_regByte d _ h3]

theorem consumeRI16_regByte (r : Fin 32) (imm : BitVec 16) (s : State) (k : Fin 32 → BitVec 16 → State → Result)
    (h : Readable 3 s) : consumeRI16 (regByte r) imm s k = k r imm (consumed 3 s) := by
  have h1 : Readable 1 s := by omega
  have h2 : Readable 2 (consumed 1 s) := readable_consumed 1 2 s h
  simp only [consumeRI16, readReg_regByte r s h1, readImm16_of_readable imm _ h2, andThen, consumed_consumed]

/-! ### The formats: everything they can do -/

theorem isOperandFault_trunc (n : Nat) (s : State) :
    IsOperandFault n s (.next (raise .truncatedProgram (consumed n s))) := .inl rfl

theorem isOperandFault_index (n : Nat) (s : State) :
    IsOperandFault (n + 1) s (.next (raise .invalidRegisterIndex (consumed (n + 1) s))) := .inr ⟨n, rfl, rfl⟩

/-- Either the register was consumed, or the result is an operand fault at or just past its byte. -/
theorem andThen_readReg_cases (b : Byte) (n : Nat) (s : State) (k : Fin 32 → State → Result) :
    (∃ r : Fin 32, b = regByte r ∧ (consumed n s).pc.toNat < s.len ∧
      andThen (readReg b (consumed n s)) k = k r (consumed (n + 1) s)) ∨
    ∃ m, n ≤ m ∧ m ≤ n + 1 ∧ IsOperandFault m s (andThen (readReg b (consumed n s)) k) := by
  rcases readReg_cases b (consumed n s) with ⟨_, h⟩ | ⟨_, _, h⟩ | ⟨hl, r, hr, h⟩
  · exact .inr ⟨n, Nat.le_refl _, Nat.le_succ _, by rw [h]; exact isOperandFault_trunc n s⟩
  · exact .inr ⟨n + 1, Nat.le_succ _, Nat.le_refl _, by
      rw [h, consumed_consumed]; exact isOperandFault_index n s⟩
  · exact .inl ⟨r, hr, hl, by rw [h, consumed_consumed]; rfl⟩

/-- Everything format `R` can do. -/
theorem consumeR_cases (b : Byte) (s : State) (k : Fin 32 → State → Result) :
    (∃ r : Fin 32, b = regByte r ∧ s.pc.toNat < s.len ∧ consumeR b s k = k r (consumed 1 s)) ∨
    ∃ m, m ≤ 1 ∧ IsOperandFault m s (consumeR b s k) := by
  have h := andThen_readReg_cases b 0 s k
  rw [consumed_zero] at h
  rcases h with h | ⟨m, _, hm, h⟩
  · exact .inl h
  · exact .inr ⟨m, hm, h⟩

/-- Everything format `RR` can do. -/
theorem consumeRR_cases (a b : Byte) (s : State) (k : Fin 32 → Fin 32 → State → Result) :
    (∃ i j : Fin 32, a = regByte i ∧ b = regByte j ∧ (consumed 1 s).pc.toNat < s.len ∧
      consumeRR a b s k = k i j (consumed 2 s)) ∨
    ∃ m, m ≤ 2 ∧ IsOperandFault m s (consumeRR a b s k) := by
  rcases consumeR_cases a s (fun i t => andThen (readReg b t) fun j u => k i j u) with ⟨i, ha, _, h⟩ | ⟨m, hm, h⟩
  · rcases andThen_readReg_cases b 1 s (k i) with ⟨j, hb, hl, h2⟩ | ⟨m, _, hm, h2⟩
    · exact .inl ⟨i, j, ha, hb, hl, h.trans h2⟩
    · exact .inr ⟨m, hm, by rw [← h] at h2; exact h2⟩
  · exact .inr ⟨m, Nat.le_succ_of_le hm, h⟩

/-- Everything format `RRR` can do. -/
theorem consumeRRR_cases (a b d : Byte) (s : State) (k : Fin 32 → Fin 32 → Fin 32 → State → Result) :
    (∃ i j l : Fin 32, a = regByte i ∧ b = regByte j ∧ d = regByte l ∧ (consumed 2 s).pc.toNat < s.len ∧
      consumeRRR a b d s k = k i j l (consumed 3 s)) ∨
    ∃ m, m ≤ 3 ∧ IsOperandFault m s (consumeRRR a b d s k) := by
  rcases consumeRR_cases a b s (fun i j t => andThen (readReg d t) fun l u => k i j l u) with
    ⟨i, j, ha, hb, _, h⟩ | ⟨m, hm, h⟩
  · rcases andThen_readReg_cases d 2 s (k i j) with ⟨l, hd, hl, h2⟩ | ⟨m, _, hm, h2⟩
    · exact .inl ⟨i, j, l, ha, hb, hd, hl, h.trans h2⟩
    · exact .inr ⟨m, hm, by rw [← h] at h2; exact h2⟩
  · exact .inr ⟨m, Nat.le_succ_of_le hm, h⟩

/-- Everything format `RI16` can do. -/
theorem consumeRI16_cases (r : Byte) (imm : BitVec 16) (s : State) (k : Fin 32 → BitVec 16 → State → Result) :
    (∃ i : Fin 32, r = regByte i ∧ (consumed 2 s).pc.toNat < s.len ∧
      consumeRI16 r imm s k = k i imm (consumed 3 s)) ∨
    ∃ m, m ≤ 3 ∧ IsOperandFault m s (consumeRI16 r imm s k) := by
  rcases consumeR_cases r s (fun i t => andThen (readImm16 imm t) fun v u => k i v u) with ⟨i, ha, _, h⟩ | ⟨m, hm, h⟩
  · have hpc : (consumed 1 s).pc + 1 = (consumed 2 s).pc := congrArg State.pc (consumed_consumed 1 1 s)
    rcases readImm16_cases imm (consumed 1 s) with ⟨_, h2⟩ | ⟨_, _, h2⟩ | ⟨_, hl, h2⟩
    · refine .inr ⟨1, by omega, ?_⟩
      have : consumeRI16 r imm s k = .next (raise .truncatedProgram (consumed 1 s)) := h.trans (by rw [h2]; rfl)
      rw [this]; exact isOperandFault_trunc 1 s
    · refine .inr ⟨2, by omega, ?_⟩
      have : consumeRI16 r imm s k = .next (raise .truncatedProgram (consumed 2 s)) :=
        h.trans (by rw [h2, consumed_consumed]; rfl)
      rw [this]; exact isOperandFault_trunc 2 s
    · exact .inl ⟨i, ha, by rw [hpc] at hl; exact hl, h.trans (by rw [h2, consumed_consumed]; rfl)⟩
  · exact .inr ⟨m, by omega, h⟩

end Sys2Proof.Machine
end

