-- ==== Sys2Proof/Laws/PerInstr.lean ====
section
/-! SUPPORT. The family `EncodedLength`, one lemma per instruction: the encoding has as many bytes as 30_encoding.md R52
gives the opcode. -/

namespace Sys2Proof.Laws

/-- The encoding of an instruction is as long as its opcode says (R45, R52). -/
def EncodedLength.Statement (i : Instr) : Prop := (encode i).length = opcodeLength (opcodeOf i)

theorem EncodedLength.halt : EncodedLength.Statement .halt := rfl
theorem EncodedLength.load (index : Byte) (imm : BitVec 16) : EncodedLength.Statement (.load index imm) := rfl
theorem EncodedLength.add (srcA srcB dst : Byte) : EncodedLength.Statement (.add srcA srcB dst) := rfl
theorem EncodedLength.multiply (srcA srcB dst : Byte) : EncodedLength.Statement (.multiply srcA srcB dst) := rfl
theorem EncodedLength.divide (srcA srcB dst : Byte) : EncodedLength.Statement (.divide srcA srcB dst) := rfl
theorem EncodedLength.jumpAbsolute (reg : Byte) : EncodedLength.Statement (.jumpAbsolute reg) := rfl
theorem EncodedLength.jumpForward (reg : Byte) : EncodedLength.Statement (.jumpForward reg) := rfl
theorem EncodedLength.jumpBackward (reg : Byte) : EncodedLength.Statement (.jumpBackward reg) := rfl
theorem EncodedLength.compareEqual (a b : Byte) : EncodedLength.Statement (.compareEqual a b) := rfl
theorem EncodedLength.jumpIfEqual (reg : Byte) : EncodedLength.Statement (.jumpIfEqual reg) := rfl
theorem EncodedLength.jumpIfNotEqual (reg : Byte) : EncodedLength.Statement (.jumpIfNotEqual reg) := rfl
theorem EncodedLength.noOp : EncodedLength.Statement .noOp := rfl
theorem EncodedLength.illegal (byte : Byte) : EncodedLength.Statement (.illegal byte) := rfl

end Sys2Proof.Laws
end

