-- ==== Sys2Proof/Laws/Step.lean ====
section
/-! SUPPORT. How a STEP begins, said once. -/

namespace Sys2Proof.Machine

theorem fetch_of_lt (s : State) (h : s.pc.toNat < s.len) :
    fetch s = .ok (decodeBytes (Memory.read s.mem s.pc.toNat) (operandByte s (s.pc + 1)) (operandByte s (s.pc + 2))
      (operandByte s (s.pc + 3))) := by
  simp only [fetch, memRead_of_lt s _ h]

theorem operandByte_of_ok (s : State) (a : Offset) (b : Byte) (h : memRead s a.toNat = .ok b) : operandByte s a = b := by
  obtain ⟨hl, rfl⟩ := memRead_ok s _ _ h
  exact if_pos hl

theorem operandByte_of_ge (s : State) (a : Offset) (h : s.len ≤ a.toNat) : operandByte s a = Config.absentByte a.toNat :=
  if_neg (Nat.not_lt.2 h)

/-- Everything a STEP can do (40_execution_cycle.md R67–R69): a halted core answers itself, the end of the program halts
normally, and otherwise the fetched instruction runs with `pc` past its opcode byte. -/
theorem step_cases (s : State) :
    (s.status ≠ .running ∧ step s = .next s) ∨
    (s.status = .running ∧ s.len ≤ s.pc.toNat ∧ step s = .next (haltNormal s)) ∨
    (s.status = .running ∧ s.pc.toNat < s.len ∧ ∃ i, fetch s = .ok i ∧ step s = exec i (advance s)) := by
  by_cases hs : s.status = .running
  · by_cases hl : s.len ≤ s.pc.toNat
    · exact .inr (.inl ⟨hs, hl, by simp only [step, beginStep, hs, beginRunning, if_pos hl]⟩)
    · have hf := fetch_of_lt s (Nat.not_le.1 hl)
      exact .inr (.inr ⟨hs, Nat.not_le.1 hl, _, hf, by simp only [step, beginStep, hs, beginRunning, if_neg hl, hf]⟩)
  · refine .inl ⟨hs, ?_⟩
    cases h : s.status with
    | running => exact absurd h hs
    | haltedNormal => simp only [step, beginStep, h]
    | haltedFault k => simp only [step, beginStep, h]

end Sys2Proof.Machine
end

