-- ==== Sys2Proof/Tests/Slice0.lean ====
section
/-! SUPPORT. The model's own tests: the well-formedness smoke test, a hand-written word for every instruction, the
single-instruction vectors of 95_test_vectors.md (their ids stand in the comments), and a witness for the hypotheses of
every statement of Certificates/Slice0/Obligations.lean that has some. -/

namespace Sys2Proof.Tests

open Sys2Proof Sys2Proof.Machine

/-! ### Well-formedness: each check refuses an ill-formed term -/

theorem test_opcode_check_refuses_halt_byte : wellFormed (.illegal 0) = false := by decide
theorem test_opcode_check_refuses_byte_eleven : opcodeOk (.illegal 11) = false := by decide
theorem test_opcode_check_accepts_byte_twelve : wellFormed (.illegal 12) = true := by decide
theorem test_register_check_refuses_destination_32 : registersOk (.add 0 1 32) = false := by decide
theorem test_register_check_refuses_load_255 : wellFormed (.load 255 0) = false := by decide
theorem test_register_check_refuses_compare_33 : wellFormed (.compareEqual 33 0) = false := by decide
theorem test_register_check_accepts_31 : wellFormed (.divide 31 0 31) = true := by decide

/-! ### Decoding: bytes written out from the formats of 30_encoding.md R44, the first byte in the lowest bits -/

theorem test_decode_halt : decodeTableWord 8 0x00 = some .halt := by decide
theorem test_decode_load : decodeTableWord 32 0x34120501 = some (.load 5 0x1234) := by decide
theorem test_decode_add : decodeTableWord 32 0x03020102 = some (.add 1 2 3) := by decide
theorem test_decode_multiply : decodeTableWord 32 0x1F000103 = some (.multiply 1 0 31) := by decide
theorem test_decode_divide : decodeTableWord 32 0x40010004 = some (.divide 0 1 64) := by decide
theorem test_decode_jumpAbsolute : decodeTableWord 16 0x0305 = some (.jumpAbsolute 3) := by decide
theorem test_decode_jumpForward : decodeTableWord 16 0x1F06 = some (.jumpForward 31) := by decide
theorem test_decode_jumpBackward : decodeTableWord 16 0x2007 = some (.jumpBackward 32) := by decide
theorem test_decode_compareEqual : decodeTableWord 24 0x020108 = some (.compareEqual 1 2) := by decide
theorem test_decode_jumpIfEqual : decodeTableWord 16 0x0309 = some (.jumpIfEqual 3) := by decide
theorem test_decode_jumpIfNotEqual : decodeTableWord 16 0x040A = some (.jumpIfNotEqual 4) := by decide
theorem test_decode_noOp : decodeTableWord 8 0x0B = some .noOp := by decide
theorem test_decode_illegal_low : decodeTableWord 8 0x0C = some (.illegal 12) := by decide
theorem test_decode_illegal_high : decodeTableWord 8 0xFF = some (.illegal 255) := by decide
/-- The bits from `nbits` on are 0: the operand bytes of a word of 8 bits are zeros. -/
theorem test_decode_short_word : decodeTableWord 8 0xFFFFFF01 = some (.load 0 0) := by decide
/-- R60: a LOAD without its last byte is rejected by name. -/
theorem test_decode_rejects_missing_byte : decode [0x01, 0x00, 0x12] = .error (.operandBytesMissing .load) := rfl
theorem test_decode_rejects_nothing : decode [] = .error .noOpcodeByte := rfl

/-! ### Small states -/

/-- Registers that hold 0 but for the listed ones. -/
def regsOf (xs : List (Fin 32 × Word)) : Vector Word 32 :=
  xs.foldl (fun r x => r.set x.1 x.2) (Vector.replicate 32 0)

/-- The start state of 95_test_vectors.md with a program, a `pc` and some registers. -/
def start (bytes : List Byte) (pc : Offset := 0) (xs : List (Fin 32 × Word) := []) : State :=
  { setProgram bytes State.reset with pc := pc, regs := regsOf xs }

/-- The state a result goes on to (the reset state for a result that does not). -/
def result (r : Result) : State := (nextState? r).getD State.reset

/-! ### Single steps -/

/-- LD1. -/
theorem test_load_zero_extends : nextState? (step (start [0x01, 0x05, 0xFF, 0xFF])) =
    some (start [0x01, 0x05, 0xFF, 0xFF] 4 [(5, 65535)]) := by decide
/-- LD6. -/
theorem test_load_checks_index_before_missing_immediate : nextState? (step (start [0x01, 0x28])) =
    some { start [0x01, 0x28] 2 with status := .haltedFault .invalidRegisterIndex } := by decide
/-- AD2. -/
theorem test_add_wraps : nextState? (step (start [0x02, 0, 1, 2] 0 [(0, 0x80000000), (1, 0xFFFFFFFF)])) =
    some (start [0x02, 0, 1, 2] 4 [(0, 0x80000000), (1, 0xFFFFFFFF), (2, 0x7FFFFFFF)]) := by decide
/-- AD4. -/
theorem test_add_reads_before_write : nextState? (step (start [0x02, 0, 0, 0] 0 [(0, 3)])) =
    some (start [0x02, 0, 0, 0] 4 [(0, 6)]) := by decide
/-- MU1. -/
theorem test_multiply_wraps : nextState? (step (start [0x03, 0, 1, 2] 0 [(0, 65535), (1, 65535)])) =
    some (start [0x03, 0, 1, 2] 4 [(0, 65535), (1, 65535), (2, 0xFFFE0001)]) := by decide
/-- MU5. -/
theorem test_multiply_is_signed : (result (step (start [0x03, 0, 1, 2] 0 [(0, -3), (1, -4)]))).regs[2] = 12 := by decide
/-- DV13. -/
theorem test_divide_into_its_divisor : nextState? (step (start [0x04, 0, 1, 1] 0 [(0, -9), (1, 4)])) =
    some { start [0x04, 0, 1, 1] 4 [(0, -9), (1, -2)] with rem := 0xFFFFFFFF } := by decide
/-- DV11. -/
theorem test_divide_by_zero : nextState? (step { start [0x04, 0, 1, 2] 0 [(0, 5), (2, 9)] with rem := 0x1234 }) =
    some { start [0x04, 0, 1, 2] 4 [(0, 5), (2, 9)] with rem := 0x1234, status := .haltedFault .divisionByZero } := by
  decide
/-- JP2. -/
theorem test_jumpAbsolute_is_unsigned : (result (step (start [0x05, 3] 0 [(3, -1)]))).pc = 4294967295 := by decide
/-- JP3. -/
theorem test_jumpAbsolute_bad_register : nextState? (step (start [0x05, 0x28])) =
    some { start [0x05, 0x28] 2 with status := .haltedFault .invalidRegisterIndex } := by decide
/-- JP5. -/
theorem test_jumpForward_does_not_wrap : (result (step (start [0x06, 0] 0 [(0, -1)]))).pc = 4294967297 := by decide
/-- JP10. -/
theorem test_jumpForward_truncated : nextState? (step (start [0x06])) =
    some { start [0x06] 1 with status := .haltedFault .truncatedProgram } := by decide
/-- JP6. -/
theorem test_jumpBackward_to_zero : nextState? (step (start [0x07, 0] 0 [(0, 2)])) =
    some (start [0x07, 0] 0 [(0, 2)]) := by decide
/-- JP7. -/
theorem test_jumpBackward_underflow : nextState? (step (start [0x07, 0] 0 [(0, 3)])) =
    some { start [0x07, 0] 2 [(0, 3)] with status := .haltedFault .invalidJumpTarget } := by decide
/-- CE2. -/
theorem test_compareEqual_clears_the_flag :
    nextState? (step { start [0x08, 0, 2] 0 [(0, -1), (2, 65535)] with flag := true }) =
    some (start [0x08, 0, 2] 3 [(0, -1), (2, 65535)]) := by decide
/-- CE3. -/
theorem test_compareEqual_bad_register : nextState? (step { start [0x08, 0, 0x21] with flag := true }) =
    some { start [0x08, 0, 0x21] 3 with flag := true, status := .haltedFault .invalidRegisterIndex } := by decide
/-- BR1. -/
theorem test_jumpIfEqual_taken : (result (step { start [0x09, 3] 0 [(3, 16)] with flag := true })).pc = 16 := by decide
/-- BR3. -/
theorem test_jumpIfEqual_not_taken_checks_its_register : nextState? (step (start [0x09, 0x32])) =
    some { start [0x09, 0x32] 2 with status := .haltedFault .invalidRegisterIndex } := by decide
/-- BR4. -/
theorem test_jumpIfNotEqual_taken : (result (step (start [0x0A, 3] 0 [(3, 16)]))).pc = 16 := by decide
/-- BR5. -/
theorem test_jumpIfNotEqual_not_taken : (result (step { start [0x0A, 3] 0 [(3, 16)] with flag := true })).pc = 2 := by
  decide
/-- NO1. -/
theorem test_noOp : nextState? (step (start [0x0B])) = some (start [0x0B] 1) := by decide
/-- HA1. -/
theorem test_halt : nextState? (step (start [0x00, 0xFF])) =
    some { start [0x00, 0xFF] 1 with status := .haltedNormal } := by decide
/-- IL2. -/
theorem test_illegal : nextState? (step (start [0xFF, 1, 2])) =
    some { start [0xFF, 1, 2] 1 with status := .haltedFault .illegalOpcode } := by decide

/-! ### Commands and the placed word -/

/-- CY1. -/
theorem test_step_after_creation : nextState? (step State.reset) = some { State.reset with status := .haltedNormal } := by
  decide
/-- A placed word is what the next step runs (an ADD of zeros writes `x[3]`). -/
theorem test_placed_word_runs : (result (step (State.reset.withFetchWord 32 0x34120301))).regs[3] = 0x1234 := by decide
/-- U11: a program over the limit is refused. -/
theorem test_loadProgram_refuses_over_limit :
    loadProgram ⟨1, by decide⟩ [0x0B, 0x0B] State.reset = .refused (.programTooLong 2) := rfl
/-- The form of a program with a zero byte: the byte has no pair. -/
theorem test_setProgram_is_canonical : (setProgram [0x01, 0x00, 0x05] State.reset).mem = [(0, 0x01), (2, 0x05)] := by
  decide
/-- Writing a zero removes the pair. -/
theorem test_write_zero_removes : Memory.write [(0, 0x01), (2, 0x05)] 2 0 = [(0, 0x01)] := by decide
/-- RS5, its last part: a halted core with a new program stays halted. -/
theorem test_halted_after_load : nextState? (issue Config.progLenMaxDefault (.run 3)
    (setProgram [0x0B] { State.reset with status := .haltedNormal })) =
    some (setProgram [0x0B] { State.reset with status := .haltedNormal }) := by decide
/-- R64: the status port shows the code. -/
theorem test_status_port : readPort .status (raise .invalidJumpTarget State.reset) =
    .state (.haltedFault .invalidJumpTarget) 6 := rfl

/-! ### Witnesses: the hypotheses of each statement are met together -/

/-- In the middle of a step: `ADD r1, r2, r3` with its opcode byte consumed and all operand bytes there, just. -/
def midAdd : State := start [0x02, 1, 2, 3] 1 [(1, 7), (2, 0)]

/-- The same with the last operand byte missing. -/
def midAddCut : State := start [0x02, 1, 2] 1 [(1, 7)]

/-- In the middle of a jump at offset 0, its register byte the last byte of the program. -/
def midJump : State := start [0x07, 0] 1 [(0, 2)]

theorem witness_OpcodeBytesFollowTheMap : 12 ≤ (12 : Byte).toNat ∧ 12 ≤ (255 : Byte).toNat := by decide
theorem witness_HighBitsFindIllegalOpcodes : decodeOpcode 11 ≠ .illegal ∧
    (11 : Byte).extractLsb' 0 4 = (11 : Byte).extractLsb' 0 4 := by decide
theorem witness_DecodeOfEncodeGivesTheInstruction :
    opcodeOk (.illegal 12) = true ∧ opcodeOk (.load 255 0xFFFF) = true := by decide
theorem witness_EncodeOfDecodeGivesTheBytes : decode [0x09, 0xFF, 0x00] = .ok (.jumpIfEqual 255, [0x00]) := rfl
theorem witness_DecodeTakesTheOpcodesLength :
    opcodeLength (decodeOpcode 0x01) ≤ ([0x01, 0, 0, 0] : List Byte).length ∧
    ([0x01, 0, 0] : List Byte).length < opcodeLength (decodeOpcode 0x01) := by decide
theorem witness_StepRunsTheDecodedInstruction :
    (start [0x02, 1, 2]).status = .running ∧ memRead (start [0x02, 1, 2]) 0 = .ok 0x02 ∧
    memRead (start [0x02, 1, 2]) 1 = .ok 1 ∧ memRead (start [0x02, 1, 2]) 2 = .ok 2 ∧
    ¬ (0 + 3 : Offset).toNat < (start [0x02, 1, 2]).len := ⟨rfl, rfl, rfl, rfl, by decide⟩
theorem witness_StepRunsTheDecodedInstruction_whole :
    memRead (start [0x02, 1, 2, 3]) 0 = .ok 0x02 ∧ memRead (start [0x02, 1, 2, 3]) 1 = .ok 1 ∧
    memRead (start [0x02, 1, 2, 3]) 2 = .ok 2 ∧ memRead (start [0x02, 1, 2, 3]) 3 = .ok 3 := ⟨rfl, rfl, rfl, rfl⟩
theorem witness_EndOfProgramHaltsNormally : (start [0x0B] 1).status = .running ∧
    (start [0x0B] 1).len ≤ (start [0x0B] 1).pc.toNat := by decide
theorem witness_HaltedCoreStaysHaltedUntilReset :
    ({ start [0x0B] with status := .haltedNormal } : State).status ≠ .running ∧
    loadProgram Config.progLenMaxDefault [0x0B] { start [] with status := .haltedNormal } =
      .next (setProgram [0x0B] { start [] with status := .haltedNormal }) := ⟨by decide, rfl⟩
theorem witness_EveryStepAnswersANextState : (start [0x02]).len = 1 ∧
    (∀ a, a < (start [0x02]).len → Memory.read [(0, 0x02), (1, 0x09)] a = Memory.read (start [0x02]).mem a) ∧
    Memory.read [(0, 0x02), (1, 0x09)] 1 ≠ Memory.read (start [0x02]).mem 1 ∧
    step (start [0x02]) = .next { start [0x02] 1 with status := .haltedFault .truncatedProgram } :=
  ⟨rfl, by decide, by decide, eq_next_of_nextState? _ _ (by decide)⟩
theorem witness_EveryStepKeepsTheInvariant : StateInv (start [0x06, 0, 0x05] 0 [(0, -1)]) ∧
    step (start [0x06, 0, 0x05] 0 [(0, -1)]) = .next (result (step (start [0x06, 0, 0x05] 0 [(0, -1)]))) :=
  ⟨by decide, rfl⟩
theorem witness_EveryCommandKeepsTheInvariant : StateInv (start [0x0B]) ∧
    issue Config.progLenMaxDefault (.loadProgram [0x00, 0x0B]) (start [0x0B]) =
      .next (setProgram [0x00, 0x0B] (start [0x0B])) := ⟨by decide, rfl⟩
theorem witness_EveryCommandKeepsTheInvariant_run :
    issue Config.progLenMaxDefault (.run 2) (start [0x0B]) =
      .next { start [0x0B] 1 with status := .haltedNormal } := eq_next_of_nextState? _ _ (by decide)
theorem witness_ProgramIsWrittenOnlyByLoadProgram :
    exec (.add 1 2 3) midAdd = .next (result (exec (.add 1 2 3) midAdd)) ∧
    (∀ bytes, Command.step ≠ .loadProgram bytes) ∧
    issue Config.progLenMaxDefault .step (start [0x0B]) = .next (start [0x0B] 1) :=
  ⟨rfl, fun _ h => (nomatch h), eq_next_of_nextState? _ _ (by decide)⟩
theorem witness_StepMovesThePcOverConsumedBytes :
    memRead (start [0x08, 0, 0]) 0 = .ok 0x08 ∧
    step (start [0x08, 0, 0]) = .next (result (step (start [0x08, 0, 0]))) ∧
    (result (step (start [0x08, 0, 0]))).status = .running ∧ isJump (decodeOpcode 0x08) = false :=
  ⟨rfl, rfl, by decide, by decide⟩
theorem witness_StepMovesThePcOverConsumedBytes_halt :
    memRead (start [0x00]) 0 = .ok 0x00 ∧ step (start [0x00]) = .next (result (step (start [0x00]))) ∧
    (result (step (start [0x00]))).status = .haltedNormal := ⟨rfl, rfl, by decide⟩
theorem witness_StepMovesThePcOverConsumedBytes_fault :
    memRead (start [0x02, 0, 1, 32]) 0 = .ok 0x02 ∧
    step (start [0x02, 0, 1, 32]) = .next (result (step (start [0x02, 0, 1, 32]))) ∧
    (result (step (start [0x02, 0, 1, 32]))).status = .haltedFault .invalidRegisterIndex := ⟨rfl, rfl, by decide⟩
theorem witness_NormalHaltsAreTheEndOrHalt : (start [0x00]).status = .running ∧
    step (start [0x00]) = .next (result (step (start [0x00]))) ∧
    (result (step (start [0x00]))).status = .haltedNormal ∧ memRead (start [0x00]) 0 = .ok 0 :=
  ⟨rfl, rfl, by decide, rfl⟩
/-- Also of `FaultKindsFollowTheTable`, whose hypotheses are the same. -/
theorem witness_FaultingInstructionsWriteNothing : midAddCut.status = .running ∧
    exec (.add 1 2 3) midAddCut = .next (result (exec (.add 1 2 3) midAddCut)) ∧
    (result (exec (.add 1 2 3) midAddCut)).status = .haltedFault .truncatedProgram := ⟨rfl, rfl, by decide⟩
theorem witness_FaultKindsFollowTheTable : midJump.status = .running ∧
    exec (.jumpBackward 32) midJump = .next (result (exec (.jumpBackward 32) midJump)) ∧
    (result (exec (.jumpBackward 32) midJump)).status = .haltedFault .invalidRegisterIndex := ⟨rfl, rfl, by decide⟩
theorem witness_OperandFaultsComeInByteOrder_truncated : LenInRange midAddCut ∧
    operandFault (.add 1 2 3) midAddCut = some (.truncatedProgram, 2) := by decide
theorem witness_OperandFaultsComeInByteOrder_index : LenInRange midAdd ∧
    operandFault (.add 31 32 33) midAdd = some (.invalidRegisterIndex, 2) := by decide
theorem witness_OperandFaultsComeInByteOrder_none : LenInRange midAdd ∧ operandFault (.divide 1 2 3) midAdd = none ∧
    midAdd.status = .running ∧ exec (.divide 1 2 3) midAdd = .next (result (exec (.divide 1 2 3) midAdd)) ∧
    (result (exec (.divide 1 2 3) midAdd)).status = .haltedFault .divisionByZero :=
  ⟨by decide, by decide, rfl, rfl, by decide⟩
theorem witness_IllegalBytesRaiseIllegalOpcode : (start [0x0C]).status = .running ∧
    memRead (start [0x0C]) 0 = .ok 0x0C ∧ 12 ≤ (0x0C : Byte).toNat := ⟨rfl, rfl, by decide⟩
theorem witness_DivideByZeroRaisesAndWritesNothing : Readable 3 midAdd ∧ midAdd.regs[(2 : Fin 32)] = 0 ∧
    midAdd.status = .running ∧ exec (.divide (regByte 1) (regByte 2) (regByte 3)) midAdd =
      .next (result (exec (.divide (regByte 1) (regByte 2) (regByte 3)) midAdd)) ∧
    (result (exec (.divide (regByte 1) (regByte 2) (regByte 3)) midAdd)).status = .haltedFault .divisionByZero :=
  ⟨by decide, by decide, rfl, rfl, by decide⟩
/-- The lowest offset that underflows: 3 past `A + 2 = 2`. -/
def midJumpFar : State := start [0x07, 0] 1 [(0, 3)]

theorem witness_BackwardUnderflowRaisesInvalidJumpTarget : Readable 1 midJumpFar ∧
    (midJumpFar.pc + 1).toNat < midJumpFar.regs[(0 : Fin 32)].toNat ∧ midJumpFar.status = .running ∧
    exec (.jumpBackward (regByte 0)) midJumpFar = .next (result (exec (.jumpBackward (regByte 0)) midJumpFar)) ∧
    (result (exec (.jumpBackward (regByte 0)) midJumpFar)).status = .haltedFault .invalidJumpTarget :=
  ⟨by decide, by decide, rfl, rfl, by decide⟩
/-- Of `LoadWritesTheUnsignedImmediate`, `AddAndMultiplyWrapTheExactResult` and `AluIsNativeTwosComplement`: the last
operand byte is the last of the program. -/
theorem witness_LoadWritesTheUnsignedImmediate : Readable 3 midAdd ∧ ¬ Readable 4 midAdd := by decide
theorem witness_AddAndMultiplyWrapTheExactResult : Readable 3 (start [0x02, 1, 1, 1] 1 [(1, 0x7FFFFFFF)]) := by decide
theorem witness_AluIsNativeTwosComplement : Readable 3 midAdd ∧ midAdd.regs[(1 : Fin 32)] ≠ 0 := by decide
theorem witness_DivideWritesQuotientAndRemainder : Readable 3 (start [0x04, 0, 1, 2] 1 [(0, -7), (1, 2)]) ∧
    (start [0x04, 0, 1, 2] 1 [(0, -7), (1, 2)]).regs[(1 : Fin 32)] ≠ 0 := by decide
theorem witness_DivideOverflowWraps : Readable 3 (start [0x04, 0, 1, 2] 1 [(0, 0x80000000), (1, -1)]) ∧
    (start [0x04, 0, 1, 2] 1 [(0, 0x80000000), (1, -1)]).regs[(0 : Fin 32)].toInt = -2147483648 ∧
    (start [0x04, 0, 1, 2] 1 [(0, 0x80000000), (1, -1)]).regs[(1 : Fin 32)].toInt = -1 := by decide
theorem witness_LoadImmediateIsBigEndianUnsigned : (start [0x01, 31, 0xFF, 0xFE]).status = .running ∧
    (start [0x01, 31, 0xFF, 0xFE]).pc.toNat + 4 ≤ (start [0x01, 31, 0xFF, 0xFE]).len ∧
    memRead (start [0x01, 31, 0xFF, 0xFE]) 0 = .ok 1 ∧ memRead (start [0x01, 31, 0xFF, 0xFE]) 1 = .ok (regByte 31) ∧
    memRead (start [0x01, 31, 0xFF, 0xFE]) 2 = .ok 0xFF ∧ memRead (start [0x01, 31, 0xFF, 0xFE]) 3 = .ok 0xFE :=
  ⟨rfl, by decide, rfl, rfl, rfl, rfl⟩
/-- The target is `LEN` itself, the lowest that ends the run. -/
theorem witness_JumpAbsoluteGoesToTheRegister : Readable 1 midJump ∧ midJump.status = .running ∧
    midJump.len ≤ midJump.regs[(0 : Fin 32)].toNat := by decide
theorem witness_JumpForwardAddsFromTheNextInstruction : LenInRange midJump ∧ Readable 1 midJump := by decide
/-- The offset is `A + 2` itself, the highest that is allowed. -/
theorem witness_JumpBackwardSubtractsFromTheNextInstruction : LenInRange midJump ∧ Readable 1 midJump ∧
    midJump.regs[(0 : Fin 32)].toNat = midJump.pc.toNat + 1 := by decide
theorem witness_CompareEqualWritesTheFlag : Readable 2 (start [0x08, 0, 2] 1 [(0, -1), (2, 65535)]) ∧
    Readable 2 (start [0x08, 0, 0] 1) := by decide
theorem witness_ConditionalJumpsFollowTheFlag : Readable 1 midJump ∧ midJump.flag = false ∧
    Readable 1 { midJump with flag := true } := by decide
theorem witness_NoOpOnlyAdvances : (start [0x0B]).status = .running ∧ memRead (start [0x0B]) 0 = .ok 0x0B ∧
    LenInRange (start [0x0B]) ∧ (start [0x0B]).pc.toNat + 1 = (start [0x0B]).len := ⟨rfl, rfl, by decide, by decide⟩
theorem witness_HaltEndsTheRunNormally : (start [0x00]).status = .running ∧ memRead (start [0x00]) 0 = .ok 0x00 :=
  ⟨rfl, rfl⟩
theorem witness_OnlyTheDestinationRegisterChanges :
    exec (.add 1 2 3) midAdd = .next (result (exec (.add 1 2 3) midAdd)) ∧
    destination (.add 1 2 3) ≠ some (4 : Fin 32).val := ⟨rfl, by decide⟩
theorem witness_OnlySourceRegistersMatter : (3 : Fin 32).val ∉ sources (.add 1 2 3) ∧
    exec (.add 1 2 3) midAdd = .next (result (exec (.add 1 2 3) midAdd)) ∧
    exec (.add 1 2 3) { midAdd with regs := midAdd.regs.set (3 : Fin 32) 5 } =
      .next (result (exec (.add 1 2 3) { midAdd with regs := midAdd.regs.set (3 : Fin 32) 5 })) :=
  ⟨by decide, rfl, rfl⟩
theorem witness_FlagIsWrittenByCompareAndReadByBranches :
    exec (.add 1 2 3) midAdd = .next (result (exec (.add 1 2 3) midAdd)) ∧
    opcodeOf (.add 1 2 3) ≠ .compareEqual ∧ readsFlag (opcodeOf (.add 1 2 3)) = false ∧
    exec (.add 1 2 3) { midAdd with flag := true } = .next (result (exec (.add 1 2 3) { midAdd with flag := true })) :=
  ⟨rfl, by decide, by decide, rfl⟩
theorem witness_FlagIsWrittenByCompareAndReadByBranches_fault : midAddCut.status = .running ∧
    exec (.compareEqual 1 32) midAddCut = .next (result (exec (.compareEqual 1 32) midAddCut)) ∧
    (result (exec (.compareEqual 1 32) midAddCut)).status = .haltedFault .invalidRegisterIndex := ⟨rfl, rfl, by decide⟩
theorem witness_FlagIsWrittenByCompareAndReadByBranches_compare : midAdd.status = .running ∧
    exec (.compareEqual 1 2) midAdd = .next (result (exec (.compareEqual 1 2) midAdd)) ∧
    (result (exec (.compareEqual 1 2) midAdd)).status = .running ∧
    exec (.compareEqual 1 2) { midAdd with flag := true } =
      .next (result (exec (.compareEqual 1 2) { midAdd with flag := true })) := ⟨rfl, rfl, by decide, rfl⟩
theorem witness_FlagPersistsUntilCompareOrReset :
    step (start [0x08, 0, 0]) = .next (result (step (start [0x08, 0, 0]))) ∧
    (result (step (start [0x08, 0, 0]))).flag ≠ (start [0x08, 0, 0]).flag ∧
    runFor 1 (start [0x08, 0, 0]) = .next (result (step (start [0x08, 0, 0]))) ∧
    loadProgram Config.progLenMaxDefault [] (start [0x0B]) = .next (setProgram [] (start [0x0B])) :=
  ⟨rfl, by decide, eq_next_of_nextState? _ _ (by decide), rfl⟩
theorem witness_FlagPersistsUntilCompareOrReset_lastStep :
    runFor 2 (start [0x0B, 0x08, 0, 0]) = .next { start [0x0B, 0x08, 0, 0] 4 with flag := true } ∧
    ({ start [0x0B, 0x08, 0, 0] 4 with flag := true } : State).flag ≠ (start [0x0B, 0x08, 0, 0]).flag :=
  ⟨eq_next_of_nextState? _ _ (by decide), by decide⟩
theorem witness_OnlyCompletedDivideWritesRem :
    exec (.divide 0 1 2) (start [0x04, 0, 1, 2] 1 [(0, -7), (1, 2)]) =
      .next (result (exec (.divide 0 1 2) (start [0x04, 0, 1, 2] 1 [(0, -7), (1, 2)]))) ∧
    (result (exec (.divide 0 1 2) (start [0x04, 0, 1, 2] 1 [(0, -7), (1, 2)]))).rem ≠
      (start [0x04, 0, 1, 2] 1 [(0, -7), (1, 2)]).rem ∧
    loadProgram Config.progLenMaxDefault [] (start [0x0B]) = .next (setProgram [] (start [0x0B])) :=
  ⟨eq_next_of_nextState? _ _ (by decide), by decide, rfl⟩
theorem witness_NoInstructionReadsRem : step (start [0x0B]) = .next (result (step (start [0x0B]))) ∧
    step { start [0x0B] with rem := 9 } = .next (result (step { start [0x0B] with rem := 9 })) := ⟨rfl, rfl⟩
theorem witness_LoadProgramReplacesTheProgram :
    ([0x0B, 0x00] : List Byte).length ≤ (⟨2, by decide⟩ : Config.ProgLenMax).val ∧
    (⟨1, by decide⟩ : Config.ProgLenMax).val < ([0x0B, 0x00] : List Byte).length := by decide
theorem witness_RunReturnsOneHaltedState : RunReturns (start [0x00]) { start [0x00] 1 with status := .haltedNormal } ∧
    (start [0x00]).status = .running ∧ step (start [0x00]) = .next { start [0x00] 1 with status := .haltedNormal } :=
  ⟨⟨1, eq_next_of_nextState? _ _ (by decide), by decide⟩, rfl, eq_next_of_nextState? _ _ (by decide)⟩

end Sys2Proof.Tests
end

