-- ==== Sys2Proof/Proofs/Flag.lean ====
section
/-! PROOFS. The equality flag (10_state.md R22): who writes it and who reads it. The idea is one comparison of two runs: from
a state with another flag, operand consumption goes the same way, so an instruction whose effect does not look at `flag`
answers the same state but for `flag`. -/

namespace Sys2Proof.Machine

/-! ### Writing the flag -/

theorem writeFlag_self (s : State) : writeFlag s.flag s = s := rfl
theorem readX_writeFlag (f : Bool) (s : State) (i : Fin 32) : readX (writeFlag f s) i = readX s i := rfl

/-! ### Two runs of operand consumption from states that differ in the flag -/

section TwoRuns

variable {f : Bool} {R : Result → Result → Prop}

/-- Consuming a register byte leads two states that differ in the flag to the same fault or to the same register. -/
theorem andThen_readReg_rel {k : Fin 32 → State → Result}
    (hraise : ∀ e t, R (.next (raise e t)) (.next (raise e (writeFlag f t))))
    (hk : ∀ i t, R (k i t) (k i (writeFlag f t))) (b : Byte) (s : State) :
    R (andThen (readReg b s) k) (andThen (readReg b (writeFlag f s)) k) := by
  by_cases hl : s.len ≤ s.pc.toNat
  · rw [readReg, readReg, readByte_of_ge b s hl, readByte_of_ge b (writeFlag f s) hl]
    exact hraise _ s
  · rw [readReg, readReg, readByte_of_lt b s (Nat.not_le.1 hl), readByte_of_lt b (writeFlag f s) (Nat.not_le.1 hl)]
    by_cases hb : b.toNat < 32
    · simp only [dif_pos hb]
      exact hk _ (consumed 1 s)
    · simp only [dif_neg hb]
      exact hraise _ (consumed 1 s)

/-- Consuming an immediate leads two states that differ in the flag to the same fault or to the same value. -/
theorem andThen_readImm16_rel {k : BitVec 16 → State → Result}
    (hraise : ∀ e t, R (.next (raise e t)) (.next (raise e (writeFlag f t))))
    (hk : ∀ v t, R (k v t) (k v (writeFlag f t))) (imm : BitVec 16) (s : State) :
    R (andThen (readImm16 imm s) k) (andThen (readImm16 imm (writeFlag f s)) k) := by
  by_cases h1 : s.len ≤ s.pc.toNat
  · simp only [readImm16, readByte_of_ge _ s h1, readByte_of_ge _ (writeFlag f s) h1]
    exact hraise _ s
  · simp only [readImm16, readByte_of_lt _ s (Nat.not_le.1 h1), readByte_of_lt _ (writeFlag f s) (Nat.not_le.1 h1)]
    by_cases h2 : (consumed 1 s).len ≤ (consumed 1 s).pc.toNat
    · simp only [readByte_of_ge _ (consumed 1 s) h2, readByte_of_ge _ (consumed 1 (writeFlag f s)) h2]
      exact hraise _ (consumed 1 s)
    · simp only [readByte_of_lt _ (consumed 1 s) (Nat.not_le.1 h2),
        readByte_of_lt _ (consumed 1 (writeFlag f s)) (Nat.not_le.1 h2)]
      exact hk _ (consumed 1 (consumed 1 s))

variable (hraise : ∀ e t, R (.next (raise e t)) (.next (raise e (writeFlag f t))))
include hraise

theorem consumeR_rel {k : Fin 32 → State → Result} (hk : ∀ i t, R (k i t) (k i (writeFlag f t))) (b : Byte) (s : State) :
    R (consumeR b s k) (consumeR b (writeFlag f s) k) :=
  andThen_readReg_rel hraise hk b s

theorem consumeRR_rel {k : Fin 32 → Fin 32 → State → Result} (hk : ∀ i j t, R (k i j t) (k i j (writeFlag f t)))
    (a b : Byte) (s : State) : R (consumeRR a b s k) (consumeRR a b (writeFlag f s) k) :=
  andThen_readReg_rel hraise (fun i => andThen_readReg_rel hraise (hk i) b) a s

theorem consumeRRR_rel {k : Fin 32 → Fin 32 → Fin 32 → State → Result}
    (hk : ∀ i j l t, R (k i j l t) (k i j l (writeFlag f t))) (a b d : Byte) (s : State) :
    R (consumeRRR a b d s k) (consumeRRR a b d (writeFlag f s) k) :=
  andThen_readReg_rel hraise
    (fun i => andThen_readReg_rel hraise (fun j => andThen_readReg_rel hraise (hk i j) d) b) a s

theorem consumeRI16_rel {k : Fin 32 → BitVec 16 → State → Result} (hk : ∀ i v t, R (k i v t) (k i v (writeFlag f t)))
    (b : Byte) (imm : BitVec 16) (s : State) : R (consumeRI16 b imm s k) (consumeRI16 b imm (writeFlag f s) k) :=
  andThen_readReg_rel hraise (fun i => andThen_readImm16_rel hraise (hk i) imm) b s

end TwoRuns

/-! ### Instructions that neither read nor write the flag carry it along -/

/-- A result with another flag in the state it goes on to. -/
def withFlag (f : Bool) : Result → Result
  | .next t => .next (writeFlag f t)
  | .fault e => .fault e
  | .refused e => .refused e

/-- The second result is the first one but for the flag, which is `f`. -/
def FlagCarried (f : Bool) (r r' : Result) : Prop := r' = withFlag f r

theorem flagCarried_raise (f : Bool) (e : FaultKind) (t : State) :
    FlagCarried f (.next (raise e t)) (.next (raise e (writeFlag f t))) := rfl

theorem FlagCarried.next_eq {f : Bool} {r r' : Result} {t u : State} (h : FlagCarried f r r') (ht : r = .next t)
    (hu : r' = .next u) : u = writeFlag f t := by
  subst ht hu
  exact Host.Outcome.next.inj h

/-- A choice that does not look at the flag carries it along if both branches do. -/
theorem FlagCarried.ite {f : Bool} {c c' : Prop} [Decidable c] [Decidable c'] {p q p' q' : Result} (hc : c' ↔ c)
    (hp : FlagCarried f p p') (hq : FlagCarried f q q') :
    FlagCarried f (if c then p else q) (if c' then p' else q') := by
  by_cases h : c
  · rwa [if_pos h, if_pos (hc.2 h)]
  · rwa [if_neg h, if_neg (mt hc.1 h)]

theorem execDivide_flagCarried (f : Bool) (srcA srcB dst : Byte) (s : State) :
    FlagCarried f (execDivide srcA srcB dst s) (execDivide srcA srcB dst (writeFlag f s)) := by
  refine consumeRRR_rel (flagCarried_raise f) (fun a b d t => ?_) srcA srcB dst s
  exact .ite (by rw [readX_writeFlag]) rfl rfl

theorem execJumpBackward_flagCarried (f : Bool) (reg : Byte) (s : State) :
    FlagCarried f (execJumpBackward reg s) (execJumpBackward reg (writeFlag f s)) := by
  refine consumeR_rel (flagCarried_raise f) (fun i t => ?_) reg s
  exact .ite (by rw [readX_writeFlag, writeFlag_pc]) rfl rfl

/-- R22: an instruction other than COMPARE_EQUAL and the conditional jumps neither reads the flag nor writes it. -/
theorem exec_flagCarried (i : Instr) (f : Bool) (s : State) (hread : readsFlag (opcodeOf i) = false)
    (hwrite : opcodeOf i ≠ .compareEqual) : FlagCarried f (exec i s) (exec i (writeFlag f s)) := by
  have hraise := flagCarried_raise f
  cases i with
  | halt => rfl
  | load r imm => exact consumeRI16_rel hraise (fun _ _ _ => by rfl) r imm s
  | add a b d => exact consumeRRR_rel hraise (fun _ _ _ _ => by rfl) a b d s
  | multiply a b d => exact consumeRRR_rel hraise (fun _ _ _ _ => by rfl) a b d s
  | divide a b d => exact execDivide_flagCarried f a b d s
  | jumpAbsolute r => exact consumeR_rel hraise (fun _ _ => by rfl) r s
  | jumpForward r => exact consumeR_rel hraise (fun _ _ => by rfl) r s
  | jumpBackward r => exact execJumpBackward_flagCarried f r s
  | compareEqual a b => exact absurd rfl hwrite
  | jumpIfEqual r => cases hread
  | jumpIfNotEqual r => cases hread
  | noOp => rfl
  | illegal b => rfl

/-! ### The conditional jumps keep the flag -/

theorem IsOperandFault.flag_eq {n : Nat} {s t : State} (h : IsOperandFault n s (.next t)) : t.flag = s.flag := by
  rcases h with h | ⟨_, _, h⟩ <;> rw [Host.Outcome.next.inj h] <;> rfl

theorem consumeR_flag_eq {b : Byte} {s t : State} {k : Fin 32 → State → Result}
    (hk : ∀ i u v, k i u = .next v → v.flag = u.flag) (h : consumeR b s k = .next t) : t.flag = s.flag := by
  rcases consumeR_cases b s k with ⟨i, _, _, hrun⟩ | ⟨n, _, hfault⟩
  · exact hk i (consumed 1 s) t (hrun.symm.trans h)
  · exact (h ▸ hfault).flag_eq

theorem jumpTo_or_stay_flag (c : Prop) [Decidable c] (target : Offset) (s : State) :
    (if c then jumpTo target s else s).flag = s.flag := by
  split <;> rfl

/-- R102, R103: a conditional jump reads the flag and does not clear it. -/
theorem exec_flag_eq_of_readsFlag (i : Instr) (s t : State) (hread : readsFlag (opcodeOf i) = true)
    (h : exec i s = .next t) : t.flag = s.flag := by
  cases i with
  | jumpIfEqual r =>
    exact consumeR_flag_eq (fun _ _ _ hv => Host.Outcome.next.inj hv ▸ jumpTo_or_stay_flag _ _ _) h
  | jumpIfNotEqual r =>
    exact consumeR_flag_eq (fun _ _ _ hv => Host.Outcome.next.inj hv ▸ jumpTo_or_stay_flag _ _ _) h
  | _ => cases hread

/-- R22: no instruction but COMPARE_EQUAL writes the flag. One that does not read it carries along the flag it finds. -/
theorem exec_flag_eq (i : Instr) (s t : State) (h : exec i s = .next t) (hwrite : opcodeOf i ≠ .compareEqual) :
    t.flag = s.flag := by
  cases hread : readsFlag (opcodeOf i) with
  | true => exact exec_flag_eq_of_readsFlag i s t hread h
  | false =>
    have hsame : exec i (writeFlag s.flag s) = .next t := by rw [writeFlag_self, h]
    have ht : t = writeFlag s.flag t := (exec_flagCarried i s.flag s hread hwrite).next_eq h hsame
    exact (congrArg State.flag ht).trans (writeFlag_flag s.flag t)

/-! ### COMPARE_EQUAL -/

/-- The results are the same, or the same fault from states that differ in the flag. -/
def SameOrFault (f : Bool) (r r' : Result) : Prop :=
  r' = r ∨ ∃ e t, r = .next (raise e t) ∧ r' = .next (raise e (writeFlag f t))

/-- COMPARE_EQUAL does not read the flag: completed, it gives the same state whatever the flag was (R101). -/
theorem execCompareEqual_sameOrFault (f : Bool) (a b : Byte) (s : State) :
    SameOrFault f (execCompareEqual a b s) (execCompareEqual a b (writeFlag f s)) :=
  consumeRR_rel (fun e t => .inr ⟨e, t, rfl, rfl⟩) (fun _ _ _ => .inl rfl) a b s

/-- A COMPARE_EQUAL either completes, which leaves the status, or ends in an operand fault, which leaves the flag. -/
theorem execCompareEqual_cases (a b : Byte) (s t : State) (h : execCompareEqual a b s = .next t) :
    t.status = s.status ∨ t.flag = s.flag := by
  rcases consumeRR_cases a b s (fun i j u => .next (writeFlag (equalFlag (readX u i) (readX u j)) u)) with
    ⟨i, j, _, _, _, hrun⟩ | ⟨n, _, hfault⟩
  · exact .inl (by rw [← Host.Outcome.next.inj (hrun.symm.trans h)]; rfl)
  · exact .inr (IsOperandFault.flag_eq (h ▸ hfault : IsOperandFault n s (.next t)))

/-- No fault writes the flag (R22). -/
theorem exec_flag_eq_of_fault (i : Instr) (s t : State) (e : FaultKind) (hs : s.status = .running)
    (h : exec i s = .next t) (ht : t.status = .haltedFault e) : t.flag = s.flag := by
  by_cases hi : opcodeOf i = .compareEqual
  · cases i with
    | compareEqual a b =>
      refine (execCompareEqual_cases a b s t h).resolve_left fun hst => ?_
      rw [ht, hs] at hst
      cases hst
    | _ => cases hi
  · exact exec_flag_eq i s t h hi

/-- Two runs of an instruction that does not read the flag differ in the flag alone, and a COMPARE_EQUAL that completes makes
even the flag the same. -/
theorem exec_two_flags (i : Instr) (f : Bool) (s t u : State) (hread : readsFlag (opcodeOf i) = false)
    (ht : exec i s = .next t) (hu : exec i (writeFlag f s) = .next u) :
    u = writeFlag u.flag t ∧ (opcodeOf i = .compareEqual → t.status = .running → u.flag = t.flag) := by
  by_cases hi : opcodeOf i = .compareEqual
  · cases i with
    | compareEqual a b =>
      rcases execCompareEqual_sameOrFault f a b s with hsame | ⟨e, v, hv, hv'⟩
      · obtain rfl : u = t := Host.Outcome.next.inj (hu.symm.trans (hsame.trans ht))
        exact ⟨rfl, fun _ _ => rfl⟩
      · obtain rfl : t = raise e v := Host.Outcome.next.inj (ht.symm.trans hv)
        obtain rfl : u = raise e (writeFlag f v) := Host.Outcome.next.inj (hu.symm.trans hv')
        exact ⟨rfl, fun _ hrun => nomatch hrun⟩
    | _ => cases hi
  · obtain rfl : u = writeFlag f t := (exec_flagCarried i f s hread hi).next_eq ht hu
    exact ⟨rfl, fun hc => absurd hc hi⟩

/-- Settles O40: the writers by `exec_flag_eq` and `exec_flag_eq_of_fault`, the readers by comparing two runs. -/
theorem flagIsWrittenByCompareAndReadByBranches : Obligations.FlagIsWrittenByCompareAndReadByBranches := by
  refine ⟨exec_flag_eq, exec_flag_eq_of_fault, fun i s t u f hread ht hu => ?_, rfl, resetCore_flag, fun _ => rfl⟩
  obtain ⟨hstate, hcompare⟩ := exec_two_flags i f s t u hread ht hu
  exact ⟨hstate, fun hc hrun _ => hcompare hc hrun⟩

end Sys2Proof.Machine
end

