-- ==== Sys2Proof/Proofs/Program.lean ====
section
/-! PROOFS. The program buffer (20_memory.md R33): the core never writes it. The idea is one rule per operand format: a
property of the next state that an operand fault has, and the instruction's effect gives, holds of the whole instruction.
With it every instruction keeps the program, hence every STEP, hence every RUN. -/

namespace Sys2Proof.Machine

/-! ### A property of the state a result goes on to -/

/-- If the result goes on to a next state, that state has the property. -/
def NextSatisfies (P : State → Prop) : Result → Prop
  | .next t => P t
  | .fault _ => True
  | .refused _ => True

theorem NextSatisfies.of_next {P : State → Prop} {r : Result} {t : State} (h : NextSatisfies P r) (ht : r = .next t) :
    P t := by
  subst ht
  exact h

theorem NextSatisfies.imp {P Q : State → Prop} {r : Result} (h : NextSatisfies P r) (hPQ : ∀ t, P t → Q t) :
    NextSatisfies Q r := by
  cases r with
  | next t => exact hPQ t h
  | fault _ => trivial
  | refused _ => trivial

theorem NextSatisfies.ite {P : State → Prop} {c : Prop} [Decidable c] {p q : Result} (hp : NextSatisfies P p)
    (hq : NextSatisfies P q) : NextSatisfies P (if c then p else q) := by
  split
  · exact hp
  · exact hq

section Operands

variable {P : State → Prop} {s : State}

theorem IsOperandFault.nextSatisfies {n : Nat} {r : Result} (h : IsOperandFault n s r)
    (hfault : ∀ e m, P (raise e (consumed m s))) : NextSatisfies P r := by
  rcases h with rfl | ⟨_, _, rfl⟩
  · exact hfault _ _
  · exact hfault _ _

variable (hfault : ∀ e m, P (raise e (consumed m s)))
include hfault

theorem consumeR_nextSatisfies {b : Byte} {k : Fin 32 → State → Result}
    (hrun : ∀ i, NextSatisfies P (k i (consumed 1 s))) : NextSatisfies P (consumeR b s k) := by
  rcases consumeR_cases b s k with ⟨i, _, _, h⟩ | ⟨_, _, h⟩
  · exact h ▸ hrun i
  · exact h.nextSatisfies hfault

theorem consumeRR_nextSatisfies {a b : Byte} {k : Fin 32 → Fin 32 → State → Result}
    (hrun : ∀ i j, NextSatisfies P (k i j (consumed 2 s))) : NextSatisfies P (consumeRR a b s k) := by
  rcases consumeRR_cases a b s k with ⟨i, j, _, _, _, h⟩ | ⟨_, _, h⟩
  · exact h ▸ hrun i j
  · exact h.nextSatisfies hfault

theorem consumeRRR_nextSatisfies {a b d : Byte} {k : Fin 32 → Fin 32 → Fin 32 → State → Result}
    (hrun : ∀ i j l, NextSatisfies P (k i j l (consumed 3 s))) : NextSatisfies P (consumeRRR a b d s k) := by
  rcases consumeRRR_cases a b d s k with ⟨i, j, l, _, _, _, _, h⟩ | ⟨_, _, h⟩
  · exact h ▸ hrun i j l
  · exact h.nextSatisfies hfault

theorem consumeRI16_nextSatisfies {b : Byte} {imm : BitVec 16} {k : Fin 32 → BitVec 16 → State → Result}
    (hrun : ∀ i, NextSatisfies P (k i imm (consumed 3 s))) : NextSatisfies P (consumeRI16 b imm s k) := by
  rcases consumeRI16_cases b imm s k with ⟨i, _, _, h⟩ | ⟨_, _, h⟩
  · exact h ▸ hrun i
  · exact h.nextSatisfies hfault

end Operands

/-! ### A RUN keeps what every STEP keeps -/

theorem runFor_induction {P : State → Prop} (hstep : ∀ u v, P u → step u = .next v → P v) (n : Nat) (s t : State)
    (hs : P s) (h : runFor n s = .next t) : P t := by
  induction n generalizing s with
  | zero =>
    obtain rfl : s = t := Host.Outcome.next.inj h
    exact hs
  | succ n ih =>
    rw [runFor] at h
    cases hu : step s with
    | next u =>
      have hPu : P u := hstep s u hs hu
      simp only [hu] at h
      split at h
      · exact ih u hPu h
      · obtain rfl : u = t := Host.Outcome.next.inj h
        exact hPu
    | fault f => simp [hu] at h
    | refused r => simp [hu] at h

/-! ### Two states with one program -/

/-- The second state holds the program of the first: the same `LEN` and the same buffer (R25). -/
structure SameProgram (s t : State) : Prop where
  len_eq : t.len = s.len
  mem_eq : t.mem = s.mem

namespace SameProgram

theorem refl (s : State) : SameProgram s s := ⟨rfl, rfl⟩

theorem trans {s t u : State} (hst : SameProgram s t) (htu : SameProgram t u) : SameProgram s u :=
  ⟨htu.len_eq.trans hst.len_eq, htu.mem_eq.trans hst.mem_eq⟩

/-- States with one program read the same at every offset, at and above `LEN` too. -/
theorem reads {s t : State} (h : SameProgram s t) : t.len = s.len ∧ ∀ a, memRead t a = memRead s a :=
  ⟨h.len_eq, memRead_congr s t h.len_eq h.mem_eq⟩

end SameProgram

theorem sameProgram_advance (s : State) : SameProgram s (advance s) := ⟨rfl, rfl⟩
theorem sameProgram_haltNormal (s : State) : SameProgram s (haltNormal s) := ⟨rfl, rfl⟩
theorem sameProgram_resetCore (s : State) : SameProgram s (resetCore s) := ⟨rfl, rfl⟩
theorem sameProgram_raise (e : FaultKind) (s : State) : SameProgram s (raise e s) := ⟨rfl, rfl⟩
theorem sameProgram_raise_consumed (s : State) (e : FaultKind) (n : Nat) : SameProgram s (raise e (consumed n s)) :=
  ⟨rfl, rfl⟩
theorem sameProgram_writeX_consumed (s : State) (i : Fin 32) (v : Word) (n : Nat) :
    SameProgram s (writeX i v (consumed n s)) := ⟨rfl, rfl⟩
theorem sameProgram_jumpTo_consumed (s : State) (target : Offset) (n : Nat) :
    SameProgram s (jumpTo target (consumed n s)) := ⟨rfl, rfl⟩

/-- A conditional jump keeps the program, taken or not. -/
theorem sameProgram_jumpTo_or_stay (s : State) (c : Prop) [Decidable c] (target : Offset) (n : Nat) :
    SameProgram s (if c then jumpTo target (consumed n s) else consumed n s) := by
  split
  · exact sameProgram_jumpTo_consumed s target n
  · exact ⟨rfl, rfl⟩

/-! ### Who keeps the program -/

/-- R33: no instruction writes the program, whether it completes or faults. -/
theorem exec_sameProgram (i : Instr) (s : State) : NextSatisfies (SameProgram s) (exec i s) := by
  have hfault := sameProgram_raise_consumed s
  cases i with
  | halt => exact sameProgram_haltNormal s
  | load r imm => exact consumeRI16_nextSatisfies hfault fun i => sameProgram_writeX_consumed s i _ 3
  | add a b d => exact consumeRRR_nextSatisfies hfault fun _ _ l => sameProgram_writeX_consumed s l _ 3
  | multiply a b d => exact consumeRRR_nextSatisfies hfault fun _ _ l => sameProgram_writeX_consumed s l _ 3
  | divide a b d =>
    refine consumeRRR_nextSatisfies hfault fun _ _ l => .ite (hfault .divisionByZero 3) ?_
    exact SameProgram.mk rfl rfl
  | jumpAbsolute r => exact consumeR_nextSatisfies hfault fun _ => sameProgram_jumpTo_consumed s _ 1
  | jumpForward r => exact consumeR_nextSatisfies hfault fun _ => sameProgram_jumpTo_consumed s _ 1
  | jumpBackward r =>
    refine consumeR_nextSatisfies hfault fun _ => .ite (hfault .invalidJumpTarget 1) ?_
    exact sameProgram_jumpTo_consumed s _ 1
  | compareEqual a b => exact consumeRR_nextSatisfies hfault fun _ _ => SameProgram.mk rfl rfl
  | jumpIfEqual r => exact consumeR_nextSatisfies hfault fun _ => sameProgram_jumpTo_or_stay s _ _ 1
  | jumpIfNotEqual r => exact consumeR_nextSatisfies hfault fun _ => sameProgram_jumpTo_or_stay s _ _ 1
  | noOp => exact SameProgram.refl s
  | illegal b => exact sameProgram_raise .illegalOpcode s

theorem step_sameProgram (s : State) : NextSatisfies (SameProgram s) (step s) := by
  rcases step_cases s with ⟨_, h⟩ | ⟨_, _, h⟩ | ⟨_, _, i, _, h⟩
  · exact h ▸ SameProgram.refl s
  · exact h ▸ sameProgram_haltNormal s
  · rw [h]
    exact (exec_sameProgram i (advance s)).imp fun _ => (sameProgram_advance s).trans

theorem runFor_sameProgram (n : Nat) (s t : State) (h : runFor n s = .next t) : SameProgram s t :=
  runFor_induction (fun u _ hu hv => hu.trans ((step_sameProgram u).of_next hv)) n s t (.refl s) h

/-- Every command but LOAD_PROGRAM keeps the program; RESET too (70_reset_and_hazards.md R130). -/
theorem issue_sameProgram (limit : Config.ProgLenMax) (c : Command) (s t : State) (hc : ∀ bytes, c ≠ .loadProgram bytes)
    (h : issue limit c s = .next t) : SameProgram s t := by
  cases c with
  | loadProgram bytes => exact absurd rfl (hc bytes)
  | reset => exact Host.Outcome.next.inj h ▸ sameProgram_resetCore s
  | step => exact (step_sameProgram s).of_next h
  | run budget => exact runFor_sameProgram budget s t h

/-- Settles O16: instructions by the rule of their operand format, RUN by induction over its budget. -/
theorem programIsWrittenOnlyByLoadProgram : Obligations.ProgramIsWrittenOnlyByLoadProgram :=
  ⟨fun i s _ h => ((exec_sameProgram i s).of_next h).reads,
    fun limit c s t hc h => (issue_sameProgram limit c s t hc h).reads⟩

end Sys2Proof.Machine
end

section
/-! PROOFS. The opcode map (30_encoding.md R49) and LOAD's immediate (R48). A STEP whose four bytes are all in the program
decodes exactly those bytes; for LOAD it then writes the immediate they spell, whose unsigned value fits the signed range
of a register. -/

namespace Sys2Proof.Machine

/-! ### The opcode map -/

/-- R49: "any other value is ILLEGAL". -/
theorem decodeOpcode_of_ge_twelve (b : Byte) (h : 12 ≤ b.toNat) : decodeOpcode b = .illegal := by
  obtain ⟨n, hn⟩ := Nat.exists_eq_add_of_le' h
  rw [decodeOpcode, hn]
  rfl

/-- Settles O1: the twelve assigned bytes by evaluation, the others by `decodeOpcode_of_ge_twelve`. -/
theorem opcodeBytesFollowTheMap : Obligations.OpcodeBytesFollowTheMap :=
  ⟨rfl, rfl, rfl, rfl, rfl, rfl, rfl, rfl, rfl, rfl, rfl, rfl, decodeOpcode_of_ge_twelve⟩

/-! ### The value of an immediate -/

theorem imm16OfBytes_toNat (hi lo : Byte) : (imm16OfBytes hi lo).toNat = hi.toNat * 256 + lo.toNat := by
  rw [imm16OfBytes, BitVec.toNat_append, ← Nat.shiftLeft_add_eq_or_of_lt lo.isLt, Nat.shiftLeft_eq]

/-- A 16-bit value lies below 2^31, so its zero-extension reads the same as signed (R48). -/
theorem zext32_toInt (imm : BitVec 16) : (zext32 imm).toInt = imm.toNat := by
  have himm : imm.toNat < 65536 := imm.isLt
  have hval : (zext32 imm).toNat = imm.toNat := by
    rw [zext32, BitVec.toNat_ofNat, Nat.mod_eq_of_lt (by omega)]
  rw [BitVec.toInt_eq_toNat_of_lt (by omega), hval]

/-! ### A STEP whose bytes are all in the program -/

theorem fetch_of_memRead {s : State} {b0 b1 b2 b3 : Byte} (h0 : memRead s s.pc.toNat = .ok b0)
    (h1 : memRead s (s.pc + 1).toNat = .ok b1) (h2 : memRead s (s.pc + 2).toNat = .ok b2)
    (h3 : memRead s (s.pc + 3).toNat = .ok b3) : fetch s = .ok (decodeBytes b0 b1 b2 b3) := by
  obtain ⟨hlt, rfl⟩ := memRead_ok s _ _ h0
  rw [fetch_of_lt s hlt, operandByte_of_ok s _ _ h1, operandByte_of_ok s _ _ h2, operandByte_of_ok s _ _ h3]

/-- R69: a Running core below the end of the program runs what it fetches, with `pc` past the opcode byte. -/
theorem step_of_fetch {s : State} {i : Instr} (hs : s.status = .running) (hlt : s.pc.toNat < s.len)
    (hf : fetch s = .ok i) : step s = exec i (advance s) := by
  rcases step_cases s with ⟨hhalted, _⟩ | ⟨_, hend, _⟩ | ⟨_, _, j, hj, hrun⟩
  · exact absurd hs hhalted
  · exact absurd hlt (Nat.not_lt.2 hend)
  · obtain rfl : j = i := Except.ok.inj (hj.symm.trans hf)
    exact hrun

/-! ### LOAD -/

theorem decodeBytes_load (b1 b2 b3 : Byte) : decodeBytes 1 b1 b2 b3 = .load b1 (imm16OfBytes b2 b3) := rfl

/-- R84: with its operands in the program and valid, LOAD writes the zero-extended immediate. -/
theorem exec_load_regByte (r : Fin 32) (imm : BitVec 16) (s : State) (h : Readable 3 s) :
    exec (.load (regByte r) imm) s = .next (writeX r (zext32 imm) (consumed 3 s)) :=
  consumeRI16_regByte r imm s _ h

/-- Settles O26: the four bytes decode as a LOAD, which writes their big-endian value. -/
theorem loadImmediateIsBigEndianUnsigned : Obligations.LoadImmediateIsBigEndianUnsigned := by
  intro s r hi lo hs hlen h0 h1 h2 h3
  have hfetch : fetch s = .ok (.load (regByte r) (imm16OfBytes hi lo)) := by
    rw [fetch_of_memRead h0 h1 h2 h3, decodeBytes_load]
  have hread : Readable 3 (advance s) := readable_consumed 1 3 s hlen
  have hstep : step s = .next (writeX r (zext32 (imm16OfBytes hi lo)) (consumed 3 (advance s))) :=
    (step_of_fetch hs (by omega) hfetch).trans (exec_load_regByte r _ _ hread)
  refine ⟨_, hstep, ?_⟩
  rw [← readX_eq, readX_writeX_same, zext32_toInt, imm16OfBytes_toNat]
  push_cast
  rfl

end Sys2Proof.Machine
end

section
/-! PROOFS. The execution cycle (40_execution_cycle.md R68–R70): what a Running STEP does at the end of the program, at an
ILLEGAL byte, and at any other byte. The idea is that consuming an operand looks at its byte only if the program has it, so
two readings of the bytes after the opcode that agree below `LEN` give instructions that run the same. -/

namespace Sys2Proof.Machine

/-! ### Two operand readings that agree in the program -/

/-- The readings `b` and `c` of the byte at `pc + n` are the same, if the program has that byte. -/
def AgreeAt (n : Nat) (s : State) (b c : Byte) : Prop := (consumed n s).pc.toNat < s.len → b = c

/-- A register byte that the program does not have is truncated, whatever it is read as (R72). -/
theorem andThen_readReg_congr {n : Nat} {s : State} {b c : Byte} {k l : Fin 32 → State → Result} (h : AgreeAt n s b c)
    (hk : ∀ i, k i (consumed (n + 1) s) = l i (consumed (n + 1) s)) :
    andThen (readReg b (consumed n s)) k = andThen (readReg c (consumed n s)) l := by
  by_cases hl : (consumed n s).pc.toNat < s.len
  · obtain rfl : b = c := h hl
    rcases readReg_cases b (consumed n s) with ⟨_, hr⟩ | ⟨_, _, hr⟩ | ⟨_, i, _, hr⟩
    · rw [hr]; rfl
    · rw [hr]; rfl
    · rw [hr, consumed_consumed]
      exact hk i
  · have hge : (consumed n s).len ≤ (consumed n s).pc.toNat := Nat.not_lt.1 hl
    rw [readReg, readReg, readByte_of_ge b _ hge, readByte_of_ge c _ hge]
    rfl

/-- An immediate without both its bytes in the program is truncated at the same byte, whatever they are read as (R74). -/
theorem readImm16_congr {n : Nat} {s : State} {hi hi' lo lo' : Byte} (hhi : AgreeAt n s hi hi')
    (hlo : AgreeAt (n + 1) s lo lo') :
    readImm16 (imm16OfBytes hi lo) (consumed n s) = readImm16 (imm16OfBytes hi' lo') (consumed n s) := by
  by_cases h0 : (consumed n s).pc.toNat < (consumed n s).len
  · by_cases h1 : (consumed (n + 1) s).pc.toNat < (consumed (n + 1) s).len
    · rw [hhi h0, hlo h1]
    · simp only [readImm16, readByte_of_lt _ _ h0, consumed_consumed, readByte_of_ge _ _ (Nat.not_lt.1 h1)]
  · simp only [readImm16, readByte_of_ge _ _ (Nat.not_lt.1 h0)]

section Formats

variable {n : Nat} {s : State} {b1 b2 b3 c1 c2 c3 : Byte} (h1 : AgreeAt n s b1 c1) (h2 : AgreeAt (n + 1) s b2 c2)
  (h3 : AgreeAt (n + 2) s b3 c3)

include h1

theorem consumeR_congr (k : Fin 32 → State → Result) :
    consumeR b1 (consumed n s) k = consumeR c1 (consumed n s) k :=
  andThen_readReg_congr h1 fun _ => rfl

include h2

theorem consumeRR_congr (k : Fin 32 → Fin 32 → State → Result) :
    consumeRR b1 b2 (consumed n s) k = consumeRR c1 c2 (consumed n s) k :=
  andThen_readReg_congr h1 fun _ => andThen_readReg_congr h2 fun _ => rfl

include h3

theorem consumeRRR_congr (k : Fin 32 → Fin 32 → Fin 32 → State → Result) :
    consumeRRR b1 b2 b3 (consumed n s) k = consumeRRR c1 c2 c3 (consumed n s) k :=
  andThen_readReg_congr h1 fun _ => andThen_readReg_congr h2 fun _ => andThen_readReg_congr h3 fun _ => rfl

theorem consumeRI16_congr (k : Fin 32 → BitVec 16 → State → Result) :
    consumeRI16 b1 (imm16OfBytes b2 b3) (consumed n s) k = consumeRI16 c1 (imm16OfBytes c2 c3) (consumed n s) k :=
  andThen_readReg_congr h1 fun _ => by rw [readImm16_congr h2 h3]

/-- No instruction uses an operand byte that the program does not have (R60, R72). -/
theorem exec_decodeBytes_congr (b0 : Byte) :
    exec (decodeBytes b0 b1 b2 b3) (consumed n s) = exec (decodeBytes b0 c1 c2 c3) (consumed n s) := by
  unfold decodeBytes
  cases decodeOpcode b0 with
  | halt => rfl
  | load => exact consumeRI16_congr h1 h2 h3 _
  | add => exact consumeRRR_congr h1 h2 h3 _
  | multiply => exact consumeRRR_congr h1 h2 h3 _
  | divide => exact consumeRRR_congr h1 h2 h3 _
  | jumpAbsolute => exact consumeR_congr h1 _
  | jumpForward => exact consumeR_congr h1 _
  | jumpBackward => exact consumeR_congr h1 _
  | compareEqual => exact consumeRR_congr h1 h2 _
  | jumpIfEqual => exact consumeR_congr h1 _
  | jumpIfNotEqual => exact consumeR_congr h1 _
  | noOp => rfl
  | illegal => rfl

end Formats

/-! ### A Running STEP -/

/-- A Running core whose opcode byte is in the program runs the instruction that byte begins (R69). -/
theorem step_of_memRead {s : State} {b0 : Byte} (hs : s.status = .running) (h0 : memRead s s.pc.toNat = .ok b0) :
    step s = exec (decodeBytes b0 (operandByte s (s.pc + 1)) (operandByte s (s.pc + 2)) (operandByte s (s.pc + 3)))
      (advance s) := by
  obtain ⟨hlt, rfl⟩ := memRead_ok s _ _ h0
  exact step_of_fetch hs hlt (fetch_of_lt s hlt)

/-- The decoder is given every operand byte that the program has. -/
theorem operandByte_agreeAt {n : Nat} {s : State} {b : Byte}
    (h : (consumed n s).pc.toNat < s.len → memRead s (consumed n s).pc.toNat = .ok b) :
    AgreeAt n s (operandByte s (consumed n s).pc) b :=
  fun hlt => operandByte_of_ok s _ b (h hlt)

/-- Settles O10: the bytes the STEP decodes agree with the given ones wherever the program has them. -/
theorem stepRunsTheDecodedInstruction : Obligations.StepRunsTheDecodedInstruction := by
  intro s b0 b1 b2 b3 hs h0 h1 h2 h3
  have a1 : AgreeAt 1 s (operandByte s (s.pc + 1)) b1 := operandByte_agreeAt h1
  have a2 : AgreeAt 2 s (operandByte s (s.pc + 2)) b2 := operandByte_agreeAt h2
  have a3 : AgreeAt 3 s (operandByte s (s.pc + 3)) b3 := operandByte_agreeAt h3
  exact (step_of_memRead hs h0).trans (exec_decodeBytes_congr a1 a2 a3 b0)

/-- Settles O11: of the three things a STEP can do (`step_cases`), a Running core at the end of the program does one. -/
theorem endOfProgramHaltsNormally : Obligations.EndOfProgramHaltsNormally := by
  intro s hs hend
  rcases step_cases s with ⟨hhalted, _⟩ | ⟨_, _, hstep⟩ | ⟨_, hlt, _⟩
  · exact absurd hs hhalted
  · exact hstep
  · exact absurd hlt (Nat.not_lt.2 hend)

/-! ### ILLEGAL -/

theorem exec_illegal (b : Byte) (s : State) : exec (.illegal b) s = .next (raise .illegalOpcode s) := rfl

theorem decodeBytes_of_ge_twelve (b b1 b2 b3 : Byte) (h : 12 ≤ b.toNat) : decodeBytes b b1 b2 b3 = .illegal b := by
  rw [decodeBytes, decodeOpcode_of_ge_twelve b h]

/-- Settles O22: a byte of 12 or more begins an ILLEGAL, which faults with `pc` past that byte. -/
theorem illegalBytesRaiseIllegalOpcode : Obligations.IllegalBytesRaiseIllegalOpcode := by
  refine ⟨exec_illegal, fun s b hs h0 hb => ?_⟩
  rw [step_of_memRead hs h0, decodeBytes_of_ge_twelve b _ _ _ hb, exec_illegal]
  rfl

end Sys2Proof.Machine
end

section
/-! PROOFS. ADD and MULTIPLY (41_load_arithmetic.md R85, R86, R88): what `wrap32` reads as, what the two instructions answer
when their operands are in the program and valid, and the two together. -/

namespace Sys2Proof.Machine

/-! ### Wrapped results -/

/-- R7: `wrap32` reduces modulo 2^32 into the signed range. -/
theorem wrap32_toInt (n : Int) : (wrap32 n).toInt = n.bmod (2 ^ 32) := BitVec.toInt_ofInt n

theorem sumResult_toInt (v w : Word) : (sumResult v w).toInt = (v.toInt + w.toInt).bmod (2 ^ 32) := wrap32_toInt _

theorem productResult_toInt (v w : Word) : (productResult v w).toInt = (v.toInt * w.toInt).bmod (2 ^ 32) :=
  wrap32_toInt _

/-! ### ADD and MULTIPLY -/

/-- R85: both sources are read before the destination is written, so equal registers need no case of their own. -/
theorem exec_add_regByte (a b d : Fin 32) (s : State) (h : Readable 3 s) :
    exec (.add (regByte a) (regByte b) (regByte d)) s =
      .next (writeX d (sumResult (readX s a) (readX s b)) (consumed 3 s)) :=
  consumeRRR_regByte a b d s _ h

/-- R86: MULTIPLY reads and writes as ADD does. -/
theorem exec_multiply_regByte (a b d : Fin 32) (s : State) (h : Readable 3 s) :
    exec (.multiply (regByte a) (regByte b) (regByte d)) s =
      .next (writeX d (productResult (readX s a) (readX s b)) (consumed 3 s)) :=
  consumeRRR_regByte a b d s _ h

/-- Settles O27: each instruction writes its wrapped result, whose signed reading is the reduced exact one. -/
theorem addAndMultiplyWrapTheExactResult : Obligations.AddAndMultiplyWrapTheExactResult := by
  intro s a b d h
  constructor
  · exact ⟨sumResult (readX s a) (readX s b), sumResult_toInt _ _, exec_add_regByte a b d s h⟩
  · exact ⟨productResult (readX s a) (readX s b), productResult_toInt _ _, exec_multiply_regByte a b d s h⟩

end Sys2Proof.Machine
end

section
/-! PROOFS. The flag persists (43_compare_branch.md R104). The idea is to find the STEP to blame: a RUN that changes a part of
the state has a STEP that changes it, and a STEP that changes the flag completes the COMPARE_EQUAL at `pc`. -/

namespace Sys2Proof.Machine

/-! ### Which byte begins a COMPARE_EQUAL -/

/-- R57: operand bytes do not change the opcode. -/
theorem opcodeOf_decodeBytes (b0 b1 b2 b3 : Byte) : opcodeOf (decodeBytes b0 b1 b2 b3) = decodeOpcode b0 := by
  unfold decodeBytes
  cases decodeOpcode b0 <;> rfl

theorem eq_eight_of_decodeOpcode_eq_compareEqual (b : Byte) (h : decodeOpcode b = .compareEqual) : b = 8 := by
  unfold decodeOpcode at h
  split at h
  case h_9 hb => exact BitVec.eq_of_toNat_eq hb
  all_goals cases h

theorem memRead_of_fetch {s : State} {i : Instr} (h : fetch s = .ok i) :
    ∃ b, memRead s s.pc.toNat = .ok b ∧ decodeOpcode b = opcodeOf i := by
  unfold fetch at h
  split at h
  next b hb =>
    obtain rfl := Except.ok.inj h
    exact ⟨b, hb, (opcodeOf_decodeBytes b _ _ _).symm⟩
  next => cases h

/-! ### What changes the flag -/

/-- R22: an instruction that changes the flag is a COMPARE_EQUAL, and it completes. -/
theorem exec_compareEqual_of_flag_ne (i : Instr) (s t : State) (h : exec i s = .next t) (hne : t.flag ≠ s.flag) :
    opcodeOf i = .compareEqual ∧ t.status = s.status := by
  have hi : opcodeOf i = .compareEqual := by_contra fun hi => hne (exec_flag_eq i s t h hi)
  refine ⟨hi, ?_⟩
  cases i with
  | compareEqual a b => exact (execCompareEqual_cases a b s t h).resolve_right hne
  | _ => cases hi

/-- R104: a STEP that changes the flag completes the COMPARE_EQUAL at `pc`. -/
theorem step_compareEqual_of_flag_ne (s t : State) (h : step s = .next t) (hne : t.flag ≠ s.flag) :
    memRead s s.pc.toNat = .ok 8 ∧ s.status = .running ∧ t.status = .running := by
  rcases step_cases s with ⟨_, hself⟩ | ⟨_, _, hend⟩ | ⟨hs, _, i, hfetch, hrun⟩
  · obtain rfl : s = t := Host.Outcome.next.inj (hself.symm.trans h)
    exact absurd rfl hne
  · obtain rfl : haltNormal s = t := Host.Outcome.next.inj (hend.symm.trans h)
    exact absurd (haltNormal_flag s) hne
  · obtain ⟨hi, hst⟩ := exec_compareEqual_of_flag_ne i (advance s) t (hrun.symm.trans h) hne
    obtain ⟨b, hb, hop⟩ := memRead_of_fetch hfetch
    obtain rfl : b = 8 := eq_eight_of_decodeOpcode_eq_compareEqual b (hop.trans hi)
    exact ⟨hb, hs, hst.trans hs⟩

/-- R131: an accepted LOAD_PROGRAM sets the program and nothing else. -/
theorem eq_setProgram_of_loadProgram {limit : Config.ProgLenMax} {bytes : List Byte} {s t : State}
    (h : loadProgram limit bytes s = .next t) : t = setProgram bytes s := by
  unfold loadProgram at h
  split at h
  · exact (Host.Outcome.next.inj h).symm
  · cases h

/-! ### A RUN changes what one of its STEPs changes -/

theorem runFor_succ_of_running (n : Nat) {s u : State} (hu : step s = .next u) (hrun : u.status = .running) :
    runFor (n + 1) s = runFor n u := by
  simp only [runFor, hu, if_pos hrun]

theorem runFor_succ_of_ne_running (n : Nat) {s u : State} (hu : step s = .next u) (hhalt : u.status ≠ .running) :
    runFor (n + 1) s = .next u := by
  simp only [runFor, hu, if_neg hhalt]

/-- A RUN that goes on to a state took its first STEP, and then went on from a Running state or stopped there (R66). -/
theorem runFor_succ_cases {n : Nat} {s t : State} (h : runFor (n + 1) s = .next t) :
    ∃ u, step s = .next u ∧ (u.status = .running ∧ runFor n u = .next t ∨ u.status ≠ .running ∧ u = t) := by
  cases hu : step s with
  | next u =>
    refine ⟨u, rfl, ?_⟩
    by_cases hrun : u.status = .running
    · exact .inl ⟨hrun, (runFor_succ_of_running n hu hrun).symm.trans h⟩
    · exact .inr ⟨hrun, Host.Outcome.next.inj ((runFor_succ_of_ne_running n hu hrun).symm.trans h)⟩
  | fault f => simp [runFor, hu] at h
  | refused r => simp [runFor, hu] at h

/-- If a RUN within a budget changes a part of the state, then so does its STEP after some `m` others. -/
theorem exists_step_ne_of_runFor_ne {α : Type} (part : State → α) (n : Nat) (s t : State) (h : runFor n s = .next t)
    (hne : part t ≠ part s) :
    ∃ m u v, m < n ∧ runFor m s = .next u ∧ step u = .next v ∧ part v ≠ part u := by
  induction n generalizing s with
  | zero =>
    obtain rfl : s = t := Host.Outcome.next.inj h
    exact absurd rfl hne
  | succ n ih =>
    obtain ⟨w, hw, hrest⟩ := runFor_succ_cases h
    by_cases hfirst : part w = part s
    · rcases hrest with ⟨hrun, ht⟩ | ⟨_, rfl⟩
      · obtain ⟨m, u, v, hm, hu, hv, huv⟩ := ih w ht (hfirst ▸ hne)
        exact ⟨m + 1, u, v, Nat.succ_lt_succ hm, (runFor_succ_of_running m hw hrun).trans hu, hv, huv⟩
      · exact absurd hfirst hne
    · exact ⟨0, s, w, Nat.succ_pos n, rfl, hw, hfirst⟩

/-- Settles O41: STEP by what an instruction does to the flag, RUN by the STEP of it that changed the flag. -/
theorem flagPersistsUntilCompareOrReset : Obligations.FlagPersistsUntilCompareOrReset := by
  refine ⟨step_compareEqual_of_flag_ne, fun n s t h hne => ?_, fun limit bytes s t h => ?_⟩
  · obtain ⟨m, u, v, hm, hu, hv, huv⟩ := exists_step_ne_of_runFor_ne State.flag n s t h hne
    obtain ⟨hbyte, hrun, hdone⟩ := step_compareEqual_of_flag_ne u v hv huv
    exact ⟨m, u, v, hm, hu, hrun, hbyte, hv, hdone⟩
  · rw [eq_setProgram_of_loadProgram h, setProgram_flag]

end Sys2Proof.Machine
end

section
/-! PROOFS. NO_OP (44_system.md R106): a STEP at its byte only advances `pc`, and from the last byte of a program in range
that advance ends at `LEN` itself, since `pc` is far too small to wrap there (10_state.md R20). -/

namespace Sys2Proof.Machine

theorem exec_noOp (s : State) : exec .noOp s = .next s := rfl

theorem decodeBytes_noOp (b1 b2 b3 : Byte) : decodeBytes 0x0B b1 b2 b3 = .noOp := rfl

/-- R69, R106: nothing follows the advance over the opcode byte. -/
theorem step_noOp {s : State} (hs : s.status = .running) (h0 : memRead s s.pc.toNat = .ok 0x0B) :
    step s = .next (advance s) := by
  rw [step_of_memRead hs h0, decodeBytes_noOp, exec_noOp]

/-- From the last byte of a program in range, `pc` advances to exactly `LEN`. -/
theorem advance_pc_toNat_of_last {s : State} (hlen : LenInRange s) (hlast : s.pc.toNat + 1 = s.len) :
    (advance s).pc.toNat = s.len := by
  have hbound : s.len ≤ 4294967295 := hlen
  have hnowrap : s.pc.toNat + (1 : Offset).toNat < 2 ^ 64 := by
    change s.pc.toNat + 1 < 2 ^ 64
    omega
  exact (BitVec.toNat_add_of_lt hnowrap).trans hlast

/-- Settles O36: the STEP by `step_noOp`; the one after the last byte finds `pc` at the end of the program. -/
theorem noOpOnlyAdvances : Obligations.NoOpOnlyAdvances := by
  refine ⟨rfl, exec_noOp, fun s hs h0 => ⟨step_noOp hs h0, fun hlen hlast => ?_⟩⟩
  exact endOfProgramHaltsNormally (advance s) hs (advance_pc_toNat_of_last hlen hlast).ge

end Sys2Proof.Machine
end

section
/-! PROOFS. The byte-list decoder and the encoder (30_encoding.md R44–R53). Both cut a list at the length that the opcode byte
alone fixes, so the two directions of the round trip come down to one instruction's own bytes. -/

namespace Sys2Proof.Machine

/-! ### The opcode byte -/

/-- The rows of the opcode map (R49): the bytes without a meaning, and the twelve that have one. -/
theorem opcodeByte_cases (b : Byte) :
    12 ≤ b.toNat ∨ b = 0 ∨ b = 1 ∨ b = 2 ∨ b = 3 ∨ b = 4 ∨ b = 5 ∨ b = 6 ∨ b = 7 ∨ b = 8 ∨ b = 9 ∨ b = 10 ∨ b = 11 := by
  bv_omega

theorem decodeOpcode_eq_illegal_iff (b : Byte) : decodeOpcode b = .illegal ↔ 12 ≤ b.toNat := by
  refine ⟨fun h => ?_, decodeOpcode_of_ge_twelve b⟩
  rcases opcodeByte_cases b with hb | rfl | rfl | rfl | rfl | rfl | rfl | rfl | rfl | rfl | rfl | rfl | rfl
  · exact hb
  all_goals cases h

/-! ### An instruction's own bytes -/

/-- R45, R52: the family `EncodedLength`, for whichever instruction. -/
theorem encode_length (i : Instr) : (encode i).length = opcodeLength (opcodeOf i) := by
  cases i <;> rfl

theorem operandBytes_length (i : Instr) : (operandBytes i).length = opcodeLength (opcodeOf i) - 1 := by
  rw [operandBytes, List.length_drop, encode_length]

theorem imm16High_imm16OfBytes (hi lo : Byte) : imm16High (imm16OfBytes hi lo) = hi :=
  BitVec.extractLsb'_append_eq_left

theorem imm16Low_imm16OfBytes (hi lo : Byte) : imm16Low (imm16OfBytes hi lo) = lo :=
  BitVec.extractLsb'_append_eq_right

/-- The encoding begins with the opcode byte, and the operand bytes after it decode to the instruction's own operands. -/
theorem exists_encode_eq_cons (i : Instr) (rest : List Byte) (h : opcodeOk i = true) :
    ∃ b0, encode i = b0 :: operandBytes i ∧ decodeOpcode b0 = opcodeOf i ∧
      decodeBytes b0 ((operandBytes i ++ rest).getD 0 0) ((operandBytes i ++ rest).getD 1 0)
        ((operandBytes i ++ rest).getD 2 0) = i := by
  cases i with
  | load r imm => exact ⟨_, rfl, rfl, congrArg (Instr.load r) (imm16OfBytes_high_low imm)⟩
  | illegal b =>
    have hb : 12 ≤ b.toNat := of_decide_eq_true h
    exact ⟨b, rfl, decodeOpcode_of_ge_twelve b hb, decodeBytes_of_ge_twelve b _ _ _ hb⟩
  | _ => exact ⟨_, rfl, rfl, rfl⟩

/-- R57: whatever four bytes are decoded, the instruction's encoding is as many of them as its opcode takes. -/
theorem encode_decodeBytes (b0 b1 b2 b3 : Byte) :
    encode (decodeBytes b0 b1 b2 b3) = [b0, b1, b2, b3].take (opcodeLength (decodeOpcode b0)) := by
  rcases opcodeByte_cases b0 with hb | rfl | rfl | rfl | rfl | rfl | rfl | rfl | rfl | rfl | rfl | rfl | rfl
  · rw [decodeBytes_of_ge_twelve b0 _ _ _ hb, decodeOpcode_of_ge_twelve b0 hb]
    rfl
  case inr.inr.inl =>
    change [1, b1, imm16High (imm16OfBytes b2 b3), imm16Low (imm16OfBytes b2 b3)] = [1, b1, b2, b3]
    rw [imm16High_imm16OfBytes, imm16Low_imm16OfBytes]
  all_goals rfl

theorem opcodeOk_decodeBytes (b0 b1 b2 b3 : Byte) : opcodeOk (decodeBytes b0 b1 b2 b3) = true := by
  rcases opcodeByte_cases b0 with hb | rfl | rfl | rfl | rfl | rfl | rfl | rfl | rfl | rfl | rfl | rfl | rfl
  · rw [decodeBytes_of_ge_twelve b0 _ _ _ hb]
    exact decide_eq_true hb
  all_goals rfl

/-! ### The decoder on a list -/

theorem opcodeLength_pos (op : Opcode) : 1 ≤ opcodeLength op := Nat.le_add_right 1 _

theorem opcodeLength_le_four (op : Opcode) : opcodeLength op ≤ 4 := by
  cases op <;> decide

theorem decode_of_le {b0 : Byte} {rest : List Byte} (h : opcodeLength (decodeOpcode b0) ≤ rest.length + 1) :
    decode (b0 :: rest) = .ok (decodeBytes b0 (rest.getD 0 0) (rest.getD 1 0) (rest.getD 2 0),
      rest.drop (opcodeLength (decodeOpcode b0) - 1)) :=
  if_neg (Nat.not_lt.2 h)

theorem decode_of_lt {b0 : Byte} {rest : List Byte} (h : rest.length + 1 < opcodeLength (decodeOpcode b0)) :
    decode (b0 :: rest) = .error (.operandBytesMissing (decodeOpcode b0)) :=
  if_pos h

/-- What the decoder accepts is a list long enough for its opcode, and this is what it gives. -/
theorem decode_ok {bs rest : List Byte} {i : Instr} (h : decode bs = .ok (i, rest)) :
    ∃ b0 tail, bs = b0 :: tail ∧ opcodeLength (decodeOpcode b0) ≤ tail.length + 1 ∧
      i = decodeBytes b0 (tail.getD 0 0) (tail.getD 1 0) (tail.getD 2 0) ∧
      rest = tail.drop (opcodeLength (decodeOpcode b0) - 1) := by
  cases bs with
  | nil => cases h
  | cons b0 tail =>
    by_cases hlen : tail.length + 1 < opcodeLength (decodeOpcode b0)
    · rw [decode_of_lt hlen] at h
      cases h
    · rw [decode_of_le (Nat.not_lt.1 hlen)] at h
      obtain ⟨hi, hrest⟩ := Prod.mk.inj (Except.ok.inj h)
      exact ⟨b0, tail, rfl, Nat.not_lt.1 hlen, hi.symm, hrest.symm⟩

/-- The bytes the decoder takes from a list that has them are the list's first ones. -/
theorem take_getD_eq_take (tail : List Byte) {n : Nat} (hn : n ≤ 3) (h : n ≤ tail.length) :
    [tail.getD 0 0, tail.getD 1 0, tail.getD 2 0].take n = tail.take n := by
  refine List.ext_getElem (by simp; omega) fun k hk _ => ?_
  have hk3 : k < n := by simp at hk; omega
  rcases (by omega : k = 0 ∨ k = 1 ∨ k = 2) with rfl | rfl | rfl
  all_goals simp [List.getElem?_eq_getElem (Nat.lt_of_lt_of_le hk3 h)]

/-! ### The obligations about the decoder -/

/-- Settles O4: the decoder takes exactly the encoding's bytes, since their number is the length of their opcode. -/
theorem decodeOfEncodeGivesTheInstruction : Obligations.DecodeOfEncodeGivesTheInstruction := by
  intro i rest hok
  obtain ⟨b0, hencode, hopcode, hdecode⟩ := exists_encode_eq_cons i rest hok
  have hlen : (operandBytes i).length = opcodeLength (decodeOpcode b0) - 1 := by rw [operandBytes_length, hopcode]
  have hle : opcodeLength (decodeOpcode b0) ≤ (operandBytes i ++ rest).length + 1 := by
    rw [List.length_append]
    omega
  rw [hencode, List.cons_append, decode_of_le hle, hdecode, List.drop_left' hlen]

/-- Settles O5: the encoding is the first `L` bytes of the list, and the decoder leaves the others. -/
theorem encodeOfDecodeGivesTheBytes : Obligations.EncodeOfDecodeGivesTheBytes := by
  intro bs rest i h
  obtain ⟨b0, tail, rfl, hlen, rfl, rfl⟩ := decode_ok h
  refine ⟨?_, opcodeOk_decodeBytes b0 _ _ _⟩
  obtain ⟨n, hn⟩ := Nat.exists_eq_add_of_le' (opcodeLength_pos (decodeOpcode b0))
  have hn4 := opcodeLength_le_four (decodeOpcode b0)
  rw [encode_decodeBytes, hn, List.take_succ_cons, take_getD_eq_take tail (by omega) (by omega), Nat.add_sub_cancel,
    List.cons_append, List.take_append_drop]

/-- Settles O6: the lengths by evaluation, the two kinds of list by the decoder's one check. -/
theorem decodeTakesTheOpcodesLength : Obligations.DecodeTakesTheOpcodesLength := by
  refine ⟨by decide, fun b rest => ⟨fun hlen => ?_, decode_of_lt⟩⟩
  refine ⟨decodeBytes b (rest.getD 0 0) (rest.getD 1 0) (rest.getD 2 0), (decode_of_le hlen).trans ?_,
    opcodeOf_decodeBytes b _ _ _⟩
  obtain ⟨n, hn⟩ := Nat.exists_eq_add_of_le' (opcodeLength_pos (decodeOpcode b))
  rw [hn, Nat.add_sub_cancel, List.drop_succ_cons]

/-- The gate-level test of R50: bits 7..4 are not 0, or bits 3..2 are 11. -/
theorem high_bits_iff_ge_twelve (b : Byte) : b.extractLsb' 4 4 ≠ 0 ∨ b.extractLsb' 2 2 = 3 ↔ 12 ≤ b.toNat := by
  have hb := b.isLt
  have h44 : (b.extractLsb' 4 4).toNat = b.toNat / 16 % 16 := by
    rw [BitVec.extractLsb'_toNat, Nat.shiftRight_eq_div_pow]
  have h22 : (b.extractLsb' 2 2).toNat = b.toNat / 4 % 4 := by
    rw [BitVec.extractLsb'_toNat, Nat.shiftRight_eq_div_pow]
  rw [Ne, ← BitVec.toNat_inj, ← BitVec.toNat_inj, h44, h22]
  change ¬ b.toNat / 16 % 16 = 0 ∨ b.toNat / 4 % 4 = 3 ↔ 12 ≤ b.toNat
  omega

/-- Settles O2: below 12 the low four bits are the whole byte. -/
theorem highBitsFindIllegalOpcodes : Obligations.HighBitsFindIllegalOpcodes := by
  refine ⟨fun b => (decodeOpcode_eq_illegal_iff b).trans (high_bits_iff_ge_twelve b).symm, fun b c hb hc hlow => ?_⟩
  rw [Ne, decodeOpcode_eq_illegal_iff] at hb hc
  have hmod : b.toNat % 16 = c.toNat % 16 := by
    simpa only [BitVec.extractLsb'_toNat, Nat.shiftRight_zero] using congrArg BitVec.toNat hlow
  exact congrArg decodeOpcode (BitVec.eq_of_toNat_eq (by omega))

/-- Settles O3: each list is read by the decoder itself. -/
theorem sampleEncodingsDecode : Obligations.SampleEncodingsDecode := ⟨rfl, rfl, rfl, rfl, rfl, rfl, rfl⟩

end Sys2Proof.Machine
end

section
/-! PROOFS. What an instruction can do, said once for all of them, in the order of 40_execution_cycle.md R76 and R78: the
operand checks, which `firstOperandFault` describes; the check at execute time, if there is one; then the writes. Each claim
about `exec` then speaks of one of the three (`exec_cases`). -/

namespace Sys2Proof.Machine

/-! ### The three parts of an instruction -/

/-- The register an index byte names, if it names one (R47). -/
def regOf (b : Byte) : Fin 32 := Fin.ofNat 32 b.toNat

/-- How many bytes from `pc` up the operand checks find in the program. In a program of 2^64 bytes or more, which no core
holds (R5), `pc` never reaches the end, and the three bytes an instruction can ask for are there. -/
def availableBytes (s : State) : Nat := if s.len < 2 ^ 64 then s.len - s.pc.toNat else 3

/-- The first operand check that fails and how many operand bytes are consumed by then, in any state. -/
def firstFault (i : Instr) (s : State) : Option (FaultKind × Nat) :=
  firstOperandFault (availableBytes s) (layout (opcodeOf i)) (operandBytes i) 0

/-- The fault of a check made when every operand is consumed (R76). -/
def executeFault : Instr → State → Option FaultKind
  | .divide _ b _, s => if readX s (regOf b) = 0 then some .divisionByZero else none
  | .jumpBackward r, s => if s.pc.toNat < uval (readX s (regOf r)) then some .invalidJumpTarget else none
  | .illegal _, _ => some .illegalOpcode
  | _, _ => none

/-- What an instruction that passes its checks leaves, from the state with every operand consumed. -/
def completed : Instr → State → State
  | .halt, s => haltNormal s
  | .load r imm, s => writeX (regOf r) (zext32 imm) s
  | .add a b d, s => writeX (regOf d) (sumResult (readX s (regOf a)) (readX s (regOf b))) s
  | .multiply a b d, s => writeX (regOf d) (productResult (readX s (regOf a)) (readX s (regOf b))) s
  | .divide a b d, s =>
    writeRem (remainderPattern (readX s (regOf a)) (readX s (regOf b)))
      (writeX (regOf d) (quotientResult (readX s (regOf a)) (readX s (regOf b))) s)
  | .jumpAbsolute r, s => jumpTo (zext64 (readX s (regOf r))) s
  | .jumpForward r, s => jumpTo (s.pc + zext64 (readX s (regOf r))) s
  | .jumpBackward r, s => jumpTo (s.pc - zext64 (readX s (regOf r))) s
  | .compareEqual a b, s => writeFlag (equalFlag (readX s (regOf a)) (readX s (regOf b))) s
  | .jumpIfEqual r, s => jumpTo (if s.flag = true then zext64 (readX s (regOf r)) else s.pc) s
  | .jumpIfNotEqual r, s => jumpTo (if s.flag = false then zext64 (readX s (regOf r)) else s.pc) s
  | .noOp, s => s
  | .illegal _, s => s

/-- The state with every operand of the instruction consumed. -/
def pastOperands (i : Instr) (s : State) : State := consumed (operandBytes i).length s

/-- The next state, past the operand checks. -/
def performed (i : Instr) (s : State) : State :=
  match executeFault i s with
  | some k => raise k s
  | none => completed i s

/-- The next state. -/
def after (i : Instr) (s : State) : State :=
  match firstFault i s with
  | some (k, n) => raise k (consumed n s)
  | none => performed i (pastOperands i s)

/-! ### Register bytes -/

theorem regOf_val {b : Byte} (h : b.toNat < 32) : (regOf b).val = b.toNat := Nat.mod_eq_of_lt h

theorem regOf_regByte (r : Fin 32) : regOf (regByte r) = r := by
  have hval : (regOf (regByte r)).val = (regByte r).toNat := regOf_val (by rw [regByte_toNat]; exact r.isLt)
  exact Fin.ext (hval.trans (regByte_toNat r))

theorem regByte_regOf {b : Byte} (h : b.toNat < 32) : regByte (regOf b) = b :=
  BitVec.eq_of_toNat_eq (by rw [regByte_toNat, regOf_val h])

/-! ### Operand consumption is what `firstOperandFault` says -/

/-- A result with an operand fault put before it, if there is one. -/
def afterFault (s : State) (r : Result) : Option (FaultKind × Nat) → Result
  | some (k, n) => .next (raise k (consumed n s))
  | none => r

/-- When every byte before it is there, the byte at `pc + n` is missing exactly if `n` are available: before the end of the
program `pc` cannot wrap. -/
theorem consumed_past_len_iff {n : Nat} {s : State} (hn : n < 3) (h : n ≤ availableBytes s) :
    s.len ≤ (consumed n s).pc.toNat ↔ availableBytes s ≤ n := by
  have hpc : s.pc.toNat < 2 ^ 64 := s.pc.isLt
  rw [consumed_pc, BitVec.toNat_add, BitVec.toNat_ofNat]
  by_cases hlen : s.len < 2 ^ 64
  · rw [availableBytes, if_pos hlen] at h ⊢
    omega
  · rw [availableBytes, if_neg hlen] at h ⊢
    omega

theorem firstOperandFault_reg (avail : Nat) (ks : List FieldKind) (b : Byte) (bs : List Byte) (n : Nat) :
    firstOperandFault avail (.reg :: ks) (b :: bs) n =
      if avail ≤ n then some (.truncatedProgram, n)
      else if 32 ≤ b.toNat then some (.invalidRegisterIndex, n + 1)
      else firstOperandFault avail ks bs (n + 1) := rfl

theorem firstOperandFault_imm16 (avail : Nat) (ks : List FieldKind) (hi lo : Byte) (bs : List Byte) (n : Nat) :
    firstOperandFault avail (.imm16 :: ks) (hi :: lo :: bs) n =
      if avail ≤ n then some (.truncatedProgram, n)
      else if avail ≤ n + 1 then some (.truncatedProgram, n + 1)
      else firstOperandFault avail ks bs (n + 2) := rfl

section Consumption

variable {n : Nat} {s : State} {r : Result} {ks : List FieldKind} {bs : List Byte}

/-- A register byte, then the operands after it. -/
theorem andThen_readReg_eq {b : Byte} {k : Fin 32 → State → Result} (hn : n < 3) (h : n ≤ availableBytes s)
    (hk : n + 1 ≤ availableBytes s →
      k (regOf b) (consumed (n + 1) s) = afterFault s r (firstOperandFault (availableBytes s) ks bs (n + 1))) :
    andThen (readReg b (consumed n s)) k =
      afterFault s r (firstOperandFault (availableBytes s) (.reg :: ks) (b :: bs) n) := by
  have hmissing := consumed_past_len_iff hn h
  rw [firstOperandFault_reg]
  rcases readReg_cases b (consumed n s) with ⟨hend, hread⟩ | ⟨hin, hb, hread⟩ | ⟨hin, i, rfl, hread⟩
  · rw [hread, if_pos (hmissing.1 hend)]
    rfl
  · rw [hread, if_neg (mt hmissing.2 (Nat.not_le.2 hin)), if_pos hb, consumed_consumed]
    rfl
  · have havail : ¬ availableBytes s ≤ n := mt hmissing.2 (Nat.not_le.2 hin)
    have hi : ¬ 32 ≤ (regByte i).toNat := by rw [regByte_toNat]; exact Nat.not_le.2 i.isLt
    rw [hread, if_neg havail, if_neg hi, ← hk (Nat.not_le.1 havail), regOf_regByte, consumed_consumed]
    rfl

/-- The two bytes of an immediate, the last operand where it occurs. -/
theorem andThen_readImm16_eq {imm : BitVec 16} {k : BitVec 16 → State → Result} (hn : n < 2) (h : n ≤ availableBytes s)
    (hk : k imm (consumed (n + 2) s) = r) :
    andThen (readImm16 imm (consumed n s)) k =
      afterFault s r (firstOperandFault (availableBytes s) [.imm16] [imm16High imm, imm16Low imm] n) := by
  have hmissing := consumed_past_len_iff (by omega) h
  have hnext : (consumed n s).pc + 1 = (consumed (n + 1) s).pc := congrArg State.pc (consumed_consumed n 1 s)
  rw [firstOperandFault_imm16]
  rcases readImm16_cases imm (consumed n s) with ⟨hend, hread⟩ | ⟨hin, hend, hread⟩ | ⟨hin, hin2, hread⟩
  · rw [hread, if_pos (hmissing.1 hend)]
    rfl
  all_goals
    have havail : ¬ availableBytes s ≤ n := mt hmissing.2 (Nat.not_le.2 hin)
    have hmissing2 := consumed_past_len_iff (n := n + 1) (s := s) (by omega) (Nat.not_le.1 havail)
    rw [hread, if_neg havail, consumed_consumed]
  · rw [hnext] at hend
    rw [if_pos (hmissing2.1 hend)]
    rfl
  · rw [hnext] at hin2
    rw [if_neg (mt hmissing2.2 (Nat.not_le.2 hin2))]
    exact hk

theorem consumeR_eq (a : Byte) (s : State) (k : Fin 32 → State → Result) :
    consumeR a s k =
      afterFault s (k (regOf a) (consumed 1 s)) (firstOperandFault (availableBytes s) [.reg] [a] 0) := by
  have h := andThen_readReg_eq (n := 0) (s := s) (b := a) (k := k) (ks := []) (bs := []) (by omega) (Nat.zero_le _)
    fun _ => rfl
  rwa [consumed_zero] at h

theorem consumeRR_eq (a b : Byte) (s : State) (k : Fin 32 → Fin 32 → State → Result) :
    consumeRR a b s k =
      afterFault s (k (regOf a) (regOf b) (consumed 2 s))
        (firstOperandFault (availableBytes s) [.reg, .reg] [a, b] 0) := by
  have h := andThen_readReg_eq (n := 0) (s := s) (b := a)
    (k := fun i t => andThen (readReg b t) fun j u => k i j u) (by omega) (Nat.zero_le _)
    fun h1 => andThen_readReg_eq (ks := []) (bs := []) (by omega) h1 fun _ => rfl
  rwa [consumed_zero] at h

theorem consumeRRR_eq (a b d : Byte) (s : State) (k : Fin 32 → Fin 32 → Fin 32 → State → Result) :
    consumeRRR a b d s k =
      afterFault s (k (regOf a) (regOf b) (regOf d) (consumed 3 s))
        (firstOperandFault (availableBytes s) [.reg, .reg, .reg] [a, b, d] 0) := by
  have h := andThen_readReg_eq (n := 0) (s := s) (b := a)
    (k := fun i t => andThen (readReg b t) fun j u => andThen (readReg d u) fun l v => k i j l v) (by omega)
    (Nat.zero_le _) fun h1 => andThen_readReg_eq (by omega) h1
      fun h2 => andThen_readReg_eq (ks := []) (bs := []) (by omega) h2 fun _ => rfl
  rwa [consumed_zero] at h

theorem consumeRI16_eq (a : Byte) (imm : BitVec 16) (s : State) (k : Fin 32 → BitVec 16 → State → Result) :
    consumeRI16 a imm s k =
      afterFault s (k (regOf a) imm (consumed 3 s))
        (firstOperandFault (availableBytes s) [.reg, .imm16] [a, imm16High imm, imm16Low imm] 0) := by
  have h := andThen_readReg_eq (n := 0) (s := s) (b := a)
    (k := fun i t => andThen (readImm16 imm t) fun v u => k i v u) (by omega) (Nat.zero_le _)
    fun h1 => andThen_readImm16_eq (by omega) h1 rfl
  rwa [consumed_zero] at h

end Consumption

/-! ### Every instruction is its three parts -/

theorem executeFault_divide (a b d : Byte) (s : State) :
    executeFault (.divide a b d) s = if readX s (regOf b) = 0 then some .divisionByZero else none := rfl

theorem executeFault_jumpBackward (r : Byte) (s : State) :
    executeFault (.jumpBackward r) s =
      if s.pc.toNat < uval (readX s (regOf r)) then some .invalidJumpTarget else none := rfl

theorem performed_of_fault {i : Instr} {s : State} {k : FaultKind} (h : executeFault i s = some k) :
    performed i s = raise k s := by
  simp only [performed, h]

theorem performed_of_none {i : Instr} {s : State} (h : executeFault i s = none) : performed i s = completed i s := by
  simp only [performed, h]

theorem performed_divide (a b d : Byte) (s : State) :
    .next (performed (.divide a b d) s) = if readX s (regOf b) = 0 then .next (raise .divisionByZero s)
      else (.next (completed (.divide a b d) s) : Result) := by
  split <;> rename_i h
  · rw [performed_of_fault ((executeFault_divide a b d s).trans (if_pos h))]
  · rw [performed_of_none ((executeFault_divide a b d s).trans (if_neg h))]

theorem performed_jumpBackward (r : Byte) (s : State) :
    .next (performed (.jumpBackward r) s) = if s.pc.toNat < uval (readX s (regOf r)) then
      .next (raise .invalidJumpTarget s) else (.next (completed (.jumpBackward r) s) : Result) := by
  split <;> rename_i h
  · rw [performed_of_fault ((executeFault_jumpBackward r s).trans (if_pos h))]
  · rw [performed_of_none ((executeFault_jumpBackward r s).trans (if_neg h))]

/-- A conditional jump not taken leaves `pc` where it is. -/
theorem jumpTo_or_stay_eq (c : Prop) [Decidable c] (target : Offset) (s : State) :
    (if c then jumpTo target s else s) = jumpTo (if c then target else s.pc) s := by
  split <;> rfl

theorem afterFault_performed (i : Instr) (s : State) :
    afterFault s (.next (performed i (pastOperands i s))) (firstFault i s) = .next (after i s) := by
  unfold after
  cases firstFault i s <;> rfl

/-- R76, R78: what `exec` answers, for every instruction and every state. -/
theorem exec_eq (i : Instr) (s : State) : exec i s = .next (after i s) := by
  rw [← afterFault_performed]
  cases i with
  | halt => exact congrArg (fun t => Host.Outcome.next (haltNormal t)) (consumed_zero s).symm
  | load r imm => exact consumeRI16_eq r imm s _
  | add a b d => exact consumeRRR_eq a b d s _
  | multiply a b d => exact consumeRRR_eq a b d s _
  | divide a b d =>
    rw [performed_divide]
    exact consumeRRR_eq a b d s _
  | jumpAbsolute r => exact consumeR_eq r s _
  | jumpForward r => exact consumeR_eq r s _
  | jumpBackward r =>
    rw [performed_jumpBackward]
    exact consumeR_eq r s _
  | compareEqual a b => exact consumeRR_eq a b s _
  | jumpIfEqual r | jumpIfNotEqual r =>
    refine (consumeR_eq r s _).trans ?_
    rw [jumpTo_or_stay_eq]
    rfl
  | noOp => exact congrArg Host.Outcome.next (consumed_zero s).symm
  | illegal b => exact congrArg (fun t => Host.Outcome.next (raise .illegalOpcode t)) (consumed_zero s).symm

theorem after_of_exec {i : Instr} {s t : State} (h : exec i s = .next t) : t = after i s :=
  Host.Outcome.next.inj (h.symm.trans (exec_eq i s))

theorem after_of_fault {i : Instr} {s : State} {k : FaultKind} {n : Nat} (h : firstFault i s = some (k, n)) :
    after i s = raise k (consumed n s) := by
  simp only [after, h]

theorem after_of_none {i : Instr} {s : State} (h : firstFault i s = none) :
    after i s = performed i (pastOperands i s) := by
  simp only [after, h]

/-- Everything an instruction can do: an operand fault, a fault at execute time, or its writes. -/
theorem after_cases (i : Instr) (s : State) :
    (∃ k n, firstFault i s = some (k, n) ∧ after i s = raise k (consumed n s)) ∨
    (firstFault i s = none ∧ ∃ k, executeFault i (pastOperands i s) = some k ∧
      after i s = raise k (pastOperands i s)) ∨
    (firstFault i s = none ∧ executeFault i (pastOperands i s) = none ∧
      after i s = completed i (pastOperands i s)) := by
  cases hfirst : firstFault i s with
  | some p => exact .inl ⟨p.1, p.2, rfl, after_of_fault hfirst⟩
  | none =>
    have hafter := after_of_none hfirst
    cases hexec : executeFault i (pastOperands i s) with
    | some k => exact .inr (.inl ⟨rfl, k, rfl, hafter.trans (performed_of_fault hexec)⟩)
    | none => exact .inr (.inr ⟨rfl, rfl, hafter.trans (performed_of_none hexec)⟩)

/-! ### What the operand checks can find -/

theorem firstOperandFault_some {avail : Nat} {ks : List FieldKind} {bs : List Byte} {n m : Nat} {k : FaultKind}
    (h : firstOperandFault avail ks bs n = some (k, m)) :
    m ≤ n + bs.length ∧ (k = .invalidRegisterIndex ∨ k = .truncatedProgram) := by
  fun_induction firstOperandFault avail ks bs n with
  | case1 | case2 | case4 | case5 =>
    obtain ⟨rfl, rfl⟩ := Prod.mk.inj (Option.some.inj h)
    simp
  | case3 _ _ _ _ _ _ ih =>
    obtain ⟨hm, hk⟩ := ih h
    exact ⟨by rw [List.length_cons]; omega, hk⟩
  | case6 _ _ _ _ _ _ _ ih =>
    obtain ⟨hm, hk⟩ := ih h
    exact ⟨by rw [List.length_cons, List.length_cons]; omega, hk⟩
  | case7 => cases h

/-- R116: an operand fault lies at or just past the operand bytes, and only an instruction that has some can raise it. -/
theorem firstFault_some {i : Instr} {s : State} {k : FaultKind} {n : Nat} (h : firstFault i s = some (k, n)) :
    n ≤ (operandBytes i).length ∧ (k = .invalidRegisterIndex ∨ k = .truncatedProgram) ∧ layout (opcodeOf i) ≠ [] := by
  obtain ⟨hn, hk⟩ := firstOperandFault_some h
  refine ⟨by omega, hk, fun hnil => ?_⟩
  rw [firstFault, hnil] at h
  cases h

/-- A register byte that passes its checks names a register, and the checks after it pass too. -/
theorem firstOperandFault_reg_eq_none {avail : Nat} {ks : List FieldKind} {b : Byte} {bs : List Byte} {n : Nat}
    (h : firstOperandFault avail (.reg :: ks) (b :: bs) n = none) :
    registerByteOk b = true ∧ firstOperandFault avail ks bs (n + 1) = none := by
  rw [firstOperandFault_reg] at h
  split at h
  · cases h
  · split at h
    · cases h
    · exact ⟨decide_eq_true (by omega), h⟩

/-- R73: past the operand checks, every register byte names a register. -/
theorem registersOk_of_firstFault_none {i : Instr} {s : State} (h : firstFault i s = none) : registersOk i = true := by
  cases i with
  | halt | noOp | illegal => rfl
  | load r => exact (firstOperandFault_reg_eq_none h).1
  | jumpAbsolute r | jumpForward r | jumpBackward r | jumpIfEqual r | jumpIfNotEqual r =>
    exact (firstOperandFault_reg_eq_none h).1
  | compareEqual a b =>
    obtain ⟨ha, h⟩ := firstOperandFault_reg_eq_none h
    obtain ⟨hb, _⟩ := firstOperandFault_reg_eq_none h
    simp only [registersOk, ha, hb, Bool.and_self]
  | add a b d | multiply a b d | divide a b d =>
    obtain ⟨ha, h⟩ := firstOperandFault_reg_eq_none h
    obtain ⟨hb, h⟩ := firstOperandFault_reg_eq_none h
    obtain ⟨hd, _⟩ := firstOperandFault_reg_eq_none h
    simp only [registersOk, ha, hb, hd, Bool.and_self]

theorem toNat_lt_of_registerByteOk {b : Byte} (h : registerByteOk b = true) : b.toNat < 32 := of_decide_eq_true h

/-! ### What an instruction that completes leaves -/

theorem operandBytes_length_le_three (i : Instr) : (operandBytes i).length ≤ 3 := by
  have := opcodeLength_le_four (opcodeOf i)
  rw [operandBytes_length]
  omega

theorem operandBytes_length_of_isJump (i : Instr) (h : isJump (opcodeOf i) = true) : (operandBytes i).length = 1 := by
  cases i with
  | jumpAbsolute r | jumpForward r | jumpBackward r | jumpIfEqual r | jumpIfNotEqual r => rfl
  | _ => cases h

/-- R80: only HALT changes the status as it completes. -/
theorem completed_status (i : Instr) (s : State) (h : i ≠ .halt) : (completed i s).status = s.status := by
  cases i with
  | halt => exact absurd rfl h
  | _ => rfl

/-- R18: only a jump assigns `pc`. -/
theorem completed_pc (i : Instr) (s : State) (h : isJump (opcodeOf i) = false) : (completed i s).pc = s.pc := by
  cases i with
  | jumpAbsolute r | jumpForward r | jumpBackward r | jumpIfEqual r | jumpIfNotEqual r => cases h
  | _ => rfl

end Sys2Proof.Machine
end

section
/-! PROOFS. The state invariant (10_state.md R20, R25). The program part is kept because only LOAD_PROGRAM writes the program.
The bound on `pc` holds because an instruction runs only from below `LEN ≤ 2^32 - 1`: it ends at most four bytes on, or a jump
goes at most 2^32 - 1 beyond the two bytes it has. -/

namespace Sys2Proof.Machine

/-! ### Parts of the invariant -/

theorem StateInv.of_sameProgram {s t : State} (h : StateInv s) (hprogram : SameProgram s t) (hpc : t.pc.toNat < 2 ^ 33) :
    StateInv t := by
  obtain ⟨hwf, hbelow, hlen, _⟩ := h
  simp only [StateInv, LenInRange, hprogram.len_eq, hprogram.mem_eq]
  exact ⟨hwf, hbelow, hlen, hpc⟩

/-- A loaded program of at most 2^32 - 1 bytes meets the invariant, whatever was there before (R131, decision D3). -/
theorem StateInv.setProgram {s : State} (h : StateInv s) {bytes : List Byte} (hlen : bytes.length ≤ Config.progLenBound) :
    StateInv (setProgram bytes s) := by
  obtain ⟨_, _, _, hpc⟩ := h
  refine ⟨Memory.wf_ofBytes bytes 0, fun c hc => ?_, hlen, hpc⟩
  obtain ⟨_, hlt, _⟩ := Memory.mem_ofBytes bytes 0 c hc
  rwa [Nat.zero_add] at hlt

/-! ### LOAD_PROGRAM's limit -/

theorem loadProgram_of_le {limit : Config.ProgLenMax} {bytes : List Byte} (s : State) (h : bytes.length ≤ limit.val) :
    loadProgram limit bytes s = .next (setProgram bytes s) :=
  if_pos h

theorem loadProgram_of_lt {limit : Config.ProgLenMax} {bytes : List Byte} (s : State) (h : limit.val < bytes.length) :
    loadProgram limit bytes s = .refused (.programTooLong bytes.length) :=
  if_neg (Nat.not_le.2 h)

theorem length_le_of_loadProgram {limit : Config.ProgLenMax} {bytes : List Byte} {s t : State}
    (h : loadProgram limit bytes s = .next t) : bytes.length ≤ limit.val := by
  by_contra hlong
  rw [loadProgram_of_lt s (Nat.not_le.1 hlong)] at h
  cases h

/-! ### How far `pc` goes -/

theorem zext64_toNat (v : Word) : (zext64 v).toNat = v.toNat := by
  have hv : v.toNat < 4294967296 := v.isLt
  rw [zext64, uval, BitVec.toNat_ofNat]
  omega

/-- R95: the furthest an instruction that completes takes `pc`, from past its operands. -/
theorem completed_pc_toNat_le (i : Instr) (s : State) (h : executeFault i s = none) :
    (completed i s).pc.toNat ≤ s.pc.toNat + 4294967295 := by
  have htarget (r : Byte) : (zext64 (readX s (regOf r))).toNat ≤ 4294967295 := by
    rw [zext64_toNat]
    exact Nat.le_of_lt_succ (readX s (regOf r)).isLt
  cases i with
  | jumpAbsolute r => exact Nat.le_add_left_of_le (htarget r)
  | jumpForward r =>
    change (s.pc + zext64 (readX s (regOf r))).toNat ≤ _
    rw [BitVec.toNat_add]
    exact (Nat.mod_le _ _).trans (Nat.add_le_add_left (htarget r) _)
  | jumpBackward r =>
    have hle : (zext64 (readX s (regOf r))).toNat ≤ s.pc.toNat := by
      rw [executeFault_jumpBackward] at h
      split at h
      · cases h
      · rw [zext64_toNat]
        exact Nat.not_lt.1 ‹_›
    change (s.pc - zext64 (readX s (regOf r))).toNat ≤ _
    rw [BitVec.toNat_sub_of_le hle]
    omega
  | jumpIfEqual r | jumpIfNotEqual r =>
    rw [completed, jumpTo_pc]
    split
    · exact Nat.le_add_left_of_le (htarget r)
    · exact Nat.le_add_right _ _
  | _ => exact Nat.le_add_right _ _

/-- R20: from past an opcode byte below `LEN`, no instruction takes `pc` to 2^33. -/
theorem after_pc_toNat_lt (i : Instr) (s : State) (h : s.pc.toNat ≤ 4294967295) : (after i s).pc.toNat < 2 ^ 33 := by
  have hlen := operandBytes_length_le_three i
  have hpast : (pastOperands i s).pc.toNat ≤ s.pc.toNat + (operandBytes i).length := pc_add_le s.pc _
  rcases after_cases i s with ⟨k, n, hfault, hafter⟩ | ⟨_, k, _, hafter⟩ | ⟨_, hnone, hafter⟩
  · have hn := (firstFault_some hfault).1
    have hpc : (consumed n s).pc.toNat ≤ s.pc.toNat + n := pc_add_le s.pc n
    rw [hafter, raise_pc]
    omega
  · rw [hafter, raise_pc]
    omega
  · rw [hafter]
    cases hjump : isJump (opcodeOf i) with
    | false =>
      rw [completed_pc i _ hjump]
      omega
    | true =>
      have hone := operandBytes_length_of_isJump i hjump
      have hgo := completed_pc_toNat_le i _ hnone
      omega

theorem step_pc_toNat_lt {s t : State} (hinv : StateInv s) (h : step s = .next t) : t.pc.toNat < 2 ^ 33 := by
  obtain ⟨_, _, hlen, hpc⟩ := hinv
  have hbound : s.len ≤ 4294967295 := hlen
  rcases step_cases s with ⟨_, hself⟩ | ⟨_, _, hend⟩ | ⟨_, hlt, i, _, hrun⟩
  · rw [← Host.Outcome.next.inj (hself.symm.trans h)]
    exact hpc
  · rw [← Host.Outcome.next.inj (hend.symm.trans h)]
    exact hpc
  · rw [after_of_exec (hrun.symm.trans h)]
    have hadvance : (advance s).pc.toNat ≤ s.pc.toNat + 1 := pc_add_le s.pc 1
    exact after_pc_toNat_lt i _ (by omega)

/-! ### The obligations about the invariant -/

/-- Settles O14: a STEP keeps the program, and `pc` stays below 2^33. -/
theorem everyStepKeepsTheInvariant : Obligations.EveryStepKeepsTheInvariant :=
  fun s _ hinv h => hinv.of_sameProgram ((step_sameProgram s).of_next h) (step_pc_toNat_lt hinv h)

/-- Settles O15: RUN by induction over its budget, each of its STEPs by O14. -/
theorem everyCommandKeepsTheInvariant : Obligations.EveryCommandKeepsTheInvariant := by
  intro limit c s t hinv h
  cases c with
  | loadProgram bytes =>
    have hload : loadProgram limit bytes s = .next t := h
    obtain rfl := eq_setProgram_of_loadProgram hload
    exact hinv.setProgram ((length_le_of_loadProgram hload).trans limit.property)
  | reset =>
    obtain rfl : resetCore s = t := Host.Outcome.next.inj h
    exact hinv.of_sameProgram (sameProgram_resetCore s) (Nat.two_pow_pos 33)
  | step => exact everyStepKeepsTheInvariant s t hinv h
  | run budget => exact runFor_induction everyStepKeepsTheInvariant budget s t hinv h

/-- Settles O8: the reset program is empty and `pc` is 0. -/
theorem resetMeetsTheInvariant : Obligations.ResetMeetsTheInvariant := by
  refine ⟨reset_mem_wf, fun c hc => ?_, ?_, ?_⟩
  · exact absurd hc List.not_mem_nil
  · exact Nat.zero_le _
  · decide

end Sys2Proof.Machine
end

section
/-! PROOFS. How instructions end (40_execution_cycle.md R80, 60_exceptions.md R113–R119): in a fault, which leaves everything
but the status and `pc`; in the normal halt of HALT; or completed. Each claim reads its answer off the three things an
instruction can do (`after_cases`). -/

namespace Sys2Proof.Machine

/-! ### Which end has which status -/

/-- An instruction that ends in a fault failed an operand check or the check at execute time, and did nothing else. -/
theorem after_fault_cases {i : Instr} {s : State} {k : FaultKind} (hs : s.status = .running)
    (h : (after i s).status = .haltedFault k) :
    (∃ n, firstFault i s = some (k, n) ∧ after i s = raise k (consumed n s)) ∨
    (firstFault i s = none ∧ executeFault i (pastOperands i s) = some k ∧ after i s = raise k (pastOperands i s)) := by
  rcases after_cases i s with ⟨j, n, hfault, hafter⟩ | ⟨hnone, j, hfault, hafter⟩ | ⟨_, _, hafter⟩
  · rw [hafter] at h
    obtain rfl := Status.haltedFault.inj h
    exact .inl ⟨n, hfault, hafter⟩
  · rw [hafter] at h
    obtain rfl := Status.haltedFault.inj h
    exact .inr ⟨hnone, hfault, hafter⟩
  · rw [hafter] at h
    by_cases hi : i = .halt
    · subst hi
      cases h
    · rw [completed_status i _ hi] at h
      cases hs.symm.trans h

/-- R77, R119: a fault leaves the state as it was but for the status and the operand bytes that `pc` has moved over. -/
theorem after_of_status_fault {i : Instr} {s : State} {k : FaultKind} (hs : s.status = .running)
    (h : (after i s).status = .haltedFault k) :
    ∃ n, n ≤ (operandBytes i).length ∧ after i s = raise k (consumed n s) := by
  rcases after_fault_cases hs h with ⟨n, hfault, hafter⟩ | ⟨_, _, hafter⟩
  · exact ⟨n, (firstFault_some hfault).1, hafter⟩
  · exact ⟨_, Nat.le_refl _, hafter⟩

theorem exec_halt (s : State) : exec .halt s = .next (haltNormal s) := rfl

theorem after_halt (s : State) : after .halt s = haltNormal s := (after_of_exec (exec_halt s)).symm

/-- R107: HALT alone ends a run normally. -/
theorem after_status_haltedNormal_iff (i : Instr) {s : State} (hs : s.status = .running) :
    (after i s).status = .haltedNormal ↔ i = .halt := by
  constructor
  · intro h
    by_contra hi
    rcases after_cases i s with ⟨k, n, _, hafter⟩ | ⟨_, k, _, hafter⟩ | ⟨_, _, hafter⟩
    · rw [hafter] at h
      cases h
    · rw [hafter] at h
      cases h
    · rw [hafter, completed_status i _ hi] at h
      cases hs.symm.trans h
  · rintro rfl
    rw [after_halt, haltNormal_status]

/-- R80: an instruction that leaves the core Running passed every check. -/
theorem after_of_status_running {i : Instr} {s : State} (h : (after i s).status = .running) :
    after i s = completed i (pastOperands i s) := by
  rcases after_cases i s with ⟨k, n, _, hafter⟩ | ⟨_, k, _, hafter⟩ | ⟨_, _, hafter⟩
  · rw [hafter] at h
    cases h
  · rw [hafter] at h
    cases h
  · exact hafter

/-! ### Where a STEP leaves `pc` -/

theorem encode_length_eq_succ (i : Instr) : (encode i).length = 1 + (operandBytes i).length := by
  have := opcodeLength_pos (opcodeOf i)
  rw [operandBytes_length, encode_length]
  omega

theorem pastOperands_advance (i : Instr) (s : State) :
    pastOperands i (advance s) = consumed (opcodeLength (opcodeOf i)) s := by
  rw [pastOperands, advance_eq_consumed, consumed_consumed, ← encode_length_eq_succ, encode_length]

/-- Settles O17: `pc` moves over the opcode byte, and then over what the instruction consumed. -/
theorem stepMovesThePcOverConsumedBytes : Obligations.StepMovesThePcOverConsumedBytes := by
  intro s t b hs hb hstep
  have hop := opcodeOf_decodeBytes b (operandByte s (s.pc + 1)) (operandByte s (s.pc + 2)) (operandByte s (s.pc + 3))
  rw [step_of_memRead hs hb] at hstep
  generalize decodeBytes b (operandByte s (s.pc + 1)) (operandByte s (s.pc + 2)) (operandByte s (s.pc + 3)) = i
    at hstep hop
  obtain rfl := after_of_exec hstep
  rw [← hop]
  refine ⟨fun hrun hjump => ?_, fun hhalt => ?_, fun k hfault => ?_⟩
  · rw [after_of_status_running hrun, completed_pc i _ hjump, pastOperands_advance, consumed_pc]
  · obtain rfl := (after_status_haltedNormal_iff i (s := advance s) hs).1 hhalt
    rw [after_halt, haltNormal_pc, advance_pc]
  · obtain ⟨n, hn, hafter⟩ := after_of_status_fault (s := advance s) hs hfault
    refine ⟨1 + n, by omega, ?_, ?_⟩
    · rw [← encode_length, encode_length_eq_succ]
      omega
    · rw [hafter, advance_eq_consumed, consumed_consumed, raise_pc, consumed_pc]

theorem opcodeOf_eq_halt_iff (i : Instr) : opcodeOf i = .halt ↔ i = .halt := by
  cases i <;> simp [opcodeOf]

/-- R49: HALT is the byte 0 alone. -/
theorem decodeOpcode_eq_halt_iff (b : Byte) : decodeOpcode b = .halt ↔ b = 0 := by
  refine ⟨fun h => ?_, fun h => h ▸ rfl⟩
  rcases opcodeByte_cases b with hb | rfl | rfl | rfl | rfl | rfl | rfl | rfl | rfl | rfl | rfl | rfl | rfl
  · rw [decodeOpcode_of_ge_twelve b hb] at h
    cases h
  · rfl
  all_goals cases h

/-- Settles O18: below `LEN` the instruction fetched is HALT exactly if its byte is 0. -/
theorem normalHaltsAreTheEndOrHalt : Obligations.NormalHaltsAreTheEndOrHalt := by
  intro s t hs hstep
  rcases step_cases s with ⟨hhalted, _⟩ | ⟨_, hend, hnormal⟩ | ⟨_, hlt, i, hfetch, hrun⟩
  · exact absurd hs hhalted
  · rw [← Host.Outcome.next.inj (hnormal.symm.trans hstep)]
    exact iff_of_true (haltNormal_status s) (.inl hend)
  · obtain ⟨b, hb, hop⟩ := memRead_of_fetch hfetch
    rw [after_of_exec (hrun.symm.trans hstep), after_status_haltedNormal_iff i (s := advance s) hs,
      ← opcodeOf_eq_halt_iff, ← hop, decodeOpcode_eq_halt_iff, or_iff_right (Nat.not_le.2 hlt), hb, Except.ok.injEq]

/-! ### What a fault leaves, and which instruction raises it -/

/-- Settles O19: a fault comes before any write. -/
theorem faultingInstructionsWriteNothing : Obligations.FaultingInstructionsWriteNothing := by
  intro i s t k hs hexec hk
  obtain rfl := after_of_exec hexec
  obtain ⟨n, hn, hafter⟩ := after_of_status_fault hs hk
  refine ⟨n, ?_, hafter⟩
  rw [encode_length_eq_succ]
  omega

/-- In a program of a length the core can hold, the available bytes are those from `pc` to `LEN`. -/
theorem firstFault_eq_operandFault (i : Instr) {s : State} (h : LenInRange s) : firstFault i s = operandFault i s := by
  have hlen : s.len < 2 ^ 64 := Nat.lt_of_le_of_lt h (by decide)
  rw [firstFault, operandFault, availableBytes, if_pos hlen]

/-- R76: which instruction a check at execute time belongs to, and what it found. -/
theorem executeFault_some {i : Instr} {s : State} {k : FaultKind} (h : executeFault i s = some k) :
    (k = .illegalOpcode ∧ opcodeOf i = .illegal) ∨
    (k = .divisionByZero ∧ ∃ a b d, i = .divide a b d ∧ readX s (regOf b) = 0) ∨
    (k = .invalidJumpTarget ∧ ∃ r, i = .jumpBackward r ∧ s.pc.toNat < uval (readX s (regOf r))) := by
  cases i with
  | illegal b => exact .inl ⟨(Option.some.inj h).symm, rfl⟩
  | divide a b d =>
    rw [executeFault_divide] at h
    split at h
    · exact .inr (.inl ⟨(Option.some.inj h).symm, a, b, d, rfl, ‹_›⟩)
    · cases h
  | jumpBackward r =>
    rw [executeFault_jumpBackward] at h
    split at h
    · exact .inr (.inr ⟨(Option.some.inj h).symm, r, rfl, ‹_›⟩)
    · cases h
  | _ => cases h

/-- Settles O20: the first operand check that fails, or, if none does, the check at execute time. -/
theorem operandFaultsComeInByteOrder : Obligations.OperandFaultsComeInByteOrder := by
  intro i s hlen
  rw [← firstFault_eq_operandFault i hlen]
  refine ⟨fun k n hfault => ?_, fun hnone hs t k hexec hk => ?_⟩
  · rw [exec_eq, after_of_fault hfault]
    rfl
  · obtain rfl := after_of_exec hexec
    rcases after_fault_cases hs hk with ⟨n, hfault, _⟩ | ⟨_, hfault, _⟩
    · cases hnone.symm.trans hfault
    · rcases executeFault_some hfault with ⟨hk, _⟩ | ⟨hk, _⟩ | ⟨hk, _⟩
      · exact .inl hk
      · exact .inr (.inl hk)
      · exact .inr (.inr hk)

/-- R116: an instruction with operands can raise either operand fault. -/
theorem mayRaise_of_layout_ne_nil {op : Opcode} {k : FaultKind} (hop : layout op ≠ [])
    (hk : k = .invalidRegisterIndex ∨ k = .truncatedProgram) : mayRaise op k = true := by
  cases op with
  | halt | noOp | illegal => exact absurd rfl hop
  | _ => rcases hk with rfl | rfl <;> rfl

/-- Settles O21: an operand fault needs operands, and a fault at execute time is its own instruction's. -/
theorem faultKindsFollowTheTable : Obligations.FaultKindsFollowTheTable := by
  intro i s t k hs hexec hk
  obtain rfl := after_of_exec hexec
  rcases after_fault_cases hs hk with ⟨n, hfault, _⟩ | ⟨_, hfault, _⟩
  · obtain ⟨_, hkind, hlayout⟩ := firstFault_some hfault
    exact mayRaise_of_layout_ne_nil hlayout hkind
  · rcases executeFault_some hfault with ⟨rfl, hi⟩ | ⟨rfl, _, _, _, rfl, _⟩ | ⟨rfl, _, rfl, _⟩
    · rw [hi]
      rfl
    · rfl
    · rfl

/-- A fault that is no operand fault was found at execute time, past valid register bytes. -/
theorem executeFault_of_exec {i : Instr} {s t : State} {k : FaultKind} (hs : s.status = .running)
    (hexec : exec i s = .next t) (ht : t.status = .haltedFault k)
    (hk : ¬ (k = .invalidRegisterIndex ∨ k = .truncatedProgram)) :
    registersOk i = true ∧ executeFault i (pastOperands i s) = some k := by
  obtain rfl := after_of_exec hexec
  rcases after_fault_cases hs ht with ⟨n, hfault, _⟩ | ⟨hnone, hfault, _⟩
  · exact absurd (firstFault_some hfault).2.1 hk
  · exact ⟨registersOk_of_firstFault_none hnone, hfault⟩

/-- The register bytes of a format of three registers name them. -/
theorem regByte_regOf_three {a b d : Byte} (h : (registerByteOk a && registerByteOk b && registerByteOk d) = true) :
    regByte (regOf a) = a ∧ regByte (regOf b) = b ∧ regByte (regOf d) = d := by
  simp only [Bool.and_eq_true] at h
  obtain ⟨⟨ha, hb⟩, hd⟩ := h
  exact ⟨regByte_regOf (toNat_lt_of_registerByteOk ha), regByte_regOf (toNat_lt_of_registerByteOk hb),
    regByte_regOf (toNat_lt_of_registerByteOk hd)⟩

theorem exec_divide_regByte_of_zero (a b d : Fin 32) (s : State) (h : Readable 3 s) (hb : readX s b = 0) :
    exec (.divide (regByte a) (regByte b) (regByte d)) s = .next (raise .divisionByZero (consumed 3 s)) :=
  (consumeRRR_regByte a b d s _ h).trans (if_pos hb)

/-- Settles O23: the divisor is checked past the operands, and no other check finds a zero divisor. -/
theorem divideByZeroRaisesAndWritesNothing : Obligations.DivideByZeroRaisesAndWritesNothing := by
  refine ⟨fun s a b d h hb => exec_divide_regByte_of_zero a b d s h hb, fun i s t hs hexec ht => ?_⟩
  obtain ⟨hregs, hfault⟩ := executeFault_of_exec hs hexec ht (by decide)
  rcases executeFault_some hfault with ⟨hk, _⟩ | ⟨_, a, b, d, rfl, hzero⟩ | ⟨hk, _⟩
  · cases hk
  · obtain ⟨ha, hb, hd⟩ := regByte_regOf_three hregs
    exact ⟨regOf a, regOf b, regOf d, by rw [ha, hb, hd], hzero⟩
  · cases hk

theorem exec_jumpBackward_regByte_of_lt (r : Fin 32) (s : State) (h : Readable 1 s)
    (hr : (s.pc + 1).toNat < uval (readX s r)) :
    exec (.jumpBackward (regByte r)) s = .next (raise .invalidJumpTarget (consumed 1 s)) :=
  (consumeR_regByte r s _ h).trans (if_pos hr)

/-- Settles O24: the target is checked past the operand, and no other check finds an underflow. -/
theorem backwardUnderflowRaisesInvalidJumpTarget : Obligations.BackwardUnderflowRaisesInvalidJumpTarget := by
  refine ⟨fun s r h hr => exec_jumpBackward_regByte_of_lt r s h hr, fun i s t hs hexec ht => ?_⟩
  obtain ⟨hregs, hfault⟩ := executeFault_of_exec hs hexec ht (by decide)
  rcases executeFault_some hfault with ⟨hk, _⟩ | ⟨hk, _⟩ | ⟨_, r, rfl, hunder⟩
  · cases hk
  · cases hk
  · exact ⟨regOf r, by rw [regByte_regOf (toNat_lt_of_registerByteOk hregs)], hunder⟩

end Sys2Proof.Machine
end

section
/-! PROOFS. LOAD, DIVIDE and the native reading of the ALU (41_load_arithmetic.md R84–R90). The values are settled first, as
facts about `Word`; then each instruction, with its operands in the program and valid, is one equation. -/

namespace Sys2Proof.Machine

/-! ### Values: quotient and remainder -/

/-- R87: what the division leaves over is the remainder of truncated division. -/
theorem sval_sub_quotient_mul (n dv : Word) : sval n - quotient n dv * sval dv = (sval n).tmod (sval dv) := by
  have h := Int.tmod_add_tdiv_mul (sval n) (sval dv)
  rw [quotient, truncDiv]
  omega

theorem remainderPattern_eq_ofInt (n dv : Word) : remainderPattern n dv = BitVec.ofInt 32 ((sval n).tmod (sval dv)) := by
  rw [remainderPattern, sval_sub_quotient_mul, wrap32]

theorem sval_eq_zero_iff (v : Word) : sval v = 0 ↔ v = 0 := by
  rw [← BitVec.toInt_inj]
  rfl

/-- The remainder is smaller than the divisor. -/
theorem natAbs_tmod_lt (n : Int) {dv : Int} (h : dv ≠ 0) : (n.tmod dv).natAbs < dv.natAbs := by
  rw [Int.natAbs_tmod]
  exact Nat.mod_lt _ (Int.natAbs_pos.2 h)

/-- The remainder is zero or has the dividend's sign. -/
theorem tmod_eq_zero_or_sign_eq (n dv : Int) : n.tmod dv = 0 ∨ (n.tmod dv).sign = n.sign := by
  by_cases h : dv ∣ n
  · exact .inl (Int.tmod_eq_zero_of_dvd h)
  · exact .inr ((Int.sign_tmod n dv).trans (if_neg h))

/-! ### Values: the native operations -/

theorem wrap32_sval (v : Word) : wrap32 (sval v) = v := BitVec.ofInt_toInt

theorem sumResult_eq_add (v w : Word) : sumResult v w = v + w := by
  rw [sumResult, wrap32, BitVec.ofInt_add]
  exact congrArg₂ (· + ·) (wrap32_sval v) (wrap32_sval w)

theorem productResult_eq_mul (v w : Word) : productResult v w = v * w := by
  rw [productResult, wrap32, BitVec.ofInt_mul]
  exact congrArg₂ (· * ·) (wrap32_sval v) (wrap32_sval w)

theorem quotientResult_eq_sdiv (n dv : Word) : quotientResult n dv = n.sdiv dv :=
  BitVec.eq_of_toInt_eq ((wrap32_toInt _).trans (BitVec.toInt_sdiv n dv).symm)

theorem remainderPattern_eq_srem (n dv : Word) : remainderPattern n dv = n.srem dv := by
  rw [remainderPattern_eq_ofInt, sval, sval, ← BitVec.toInt_srem]
  exact wrap32_sval (n.srem dv)

/-! ### LOAD and DIVIDE -/

/-- Settles O25: the zero-extended immediate reads the same as signed (`zext32_toInt`). -/
theorem loadWritesTheUnsignedImmediate : Obligations.LoadWritesTheUnsignedImmediate :=
  fun s r imm h => ⟨zext32 imm, zext32_toInt imm, exec_load_regByte r imm s h⟩

/-- R87, R79: both results come from the registers as they were. -/
theorem exec_divide_regByte_of_ne (a b d : Fin 32) (s : State) (h : Readable 3 s) (hb : readX s b ≠ 0) :
    exec (.divide (regByte a) (regByte b) (regByte d)) s =
      .next (writeRem (remainderPattern (readX s a) (readX s b))
        (writeX d (quotientResult (readX s a) (readX s b)) (consumed 3 s))) :=
  (consumeRRR_regByte a b d s _ h).trans (if_neg hb)

/-- Settles O28: truncated division has the three properties, and DIVIDE writes its two results. -/
theorem divideWritesQuotientAndRemainder : Obligations.DivideWritesQuotientAndRemainder := by
  intro s a b d h hb
  have hdv : sval s.regs[b] ≠ 0 := mt (sval_eq_zero_iff _).1 hb
  refine ⟨quotient s.regs[a] s.regs[b], (sval s.regs[a]).tmod (sval s.regs[b]), ?_, natAbs_tmod_lt _ hdv,
    tmod_eq_zero_or_sign_eq _ _, ?_⟩
  · rw [add_comm]
    exact (Int.tmod_add_tdiv_mul _ _).symm
  · rw [← remainderPattern_eq_ofInt]
    exact exec_divide_regByte_of_ne a b d s h hb

/-- Settles O29: the two registers hold the patterns of -2^31 and -1, whose results are evaluated. -/
theorem divideOverflowWraps : Obligations.DivideOverflowWraps := by
  intro s a b d h ha hb
  have hn : readX s a = 0x80000000#32 := BitVec.eq_of_toInt_eq ha
  have hdv : readX s b = 0xFFFFFFFF#32 := BitVec.eq_of_toInt_eq hb
  have hq : quotientResult 0x80000000#32 0xFFFFFFFF#32 = 0x80000000#32 := by decide
  have hr : remainderPattern 0x80000000#32 0xFFFFFFFF#32 = 0#32 := by decide
  rw [exec_divide_regByte_of_ne a b d s h (by rw [hdv]; decide), hn, hdv, hq, hr]
  rfl

/-- Settles O30: each wrapped result is the native operation's. -/
theorem aluIsNativeTwosComplement : Obligations.AluIsNativeTwosComplement := by
  intro s a b d h
  refine ⟨?_, ?_, fun hb => ?_⟩
  · rw [exec_add_regByte a b d s h, sumResult_eq_add]
    rfl
  · rw [exec_multiply_regByte a b d s h, productResult_eq_mul]
    rfl
  · rw [exec_divide_regByte_of_ne a b d s h hb, quotientResult_eq_sdiv, remainderPattern_eq_srem]
    rfl

end Sys2Proof.Machine
end

section
/-! PROOFS. The jumps and COMPARE_EQUAL (42_jumps.md, 43_compare_branch.md): with its operands in the program and valid, each
is one equation. The target is the register's unsigned value or lies that far from the next instruction, and in a program of
a length the core can hold neither sum nor difference wraps (10_state.md R20). -/

namespace Sys2Proof.Machine

/-! ### One equation per instruction -/

theorem exec_jumpAbsolute_regByte (r : Fin 32) (s : State) (h : Readable 1 s) :
    exec (.jumpAbsolute (regByte r)) s = .next (jumpTo (zext64 (readX s r)) (consumed 1 s)) :=
  consumeR_regByte r s _ h

theorem exec_jumpForward_regByte (r : Fin 32) (s : State) (h : Readable 1 s) :
    exec (.jumpForward (regByte r)) s = .next (jumpTo (s.pc + 1 + zext64 (readX s r)) (consumed 1 s)) :=
  consumeR_regByte r s _ h

theorem exec_jumpBackward_regByte_of_le (r : Fin 32) (s : State) (h : Readable 1 s)
    (hr : uval (readX s r) ≤ (s.pc + 1).toNat) :
    exec (.jumpBackward (regByte r)) s = .next (jumpTo (s.pc + 1 - zext64 (readX s r)) (consumed 1 s)) :=
  (consumeR_regByte r s _ h).trans (if_neg (Nat.not_lt.2 hr))

theorem exec_compareEqual_regByte (a b : Fin 32) (s : State) (h : Readable 2 s) :
    exec (.compareEqual (regByte a) (regByte b)) s =
      .next (writeFlag (equalFlag (readX s a) (readX s b)) (consumed 2 s)) :=
  consumeRR_regByte a b s _ h

theorem exec_jumpIfEqual_regByte (r : Fin 32) (s : State) (h : Readable 1 s) :
    exec (.jumpIfEqual (regByte r)) s =
      .next (jumpTo (if s.flag = true then zext64 (readX s r) else s.pc + 1) (consumed 1 s)) := by
  refine (consumeR_regByte r s _ h).trans ?_
  rw [jumpTo_or_stay_eq]
  rfl

theorem exec_jumpIfNotEqual_regByte (r : Fin 32) (s : State) (h : Readable 1 s) :
    exec (.jumpIfNotEqual (regByte r)) s =
      .next (jumpTo (if s.flag = true then s.pc + 1 else zext64 (readX s r)) (consumed 1 s)) := by
  refine (consumeR_regByte r s _ h).trans ?_
  rw [jumpTo_or_stay_eq]
  simp only [← Bool.not_eq_true, ite_not]
  rfl

/-! ### The position after a jump -/

/-- R20: `pc` moves past an operand byte of a program in range without wrapping. -/
theorem pc_add_one_toNat {s : State} (hlen : LenInRange s) (h : Readable 1 s) : (s.pc + 1).toNat = s.pc.toNat + 1 := by
  have hbound : s.len ≤ 4294967295 := hlen
  have hnowrap : s.pc.toNat + (1 : Offset).toNat < 2 ^ 64 := by
    change s.pc.toNat + 1 < 2 ^ 64
    omega
  exact BitVec.toNat_add_of_lt hnowrap

/-! ### The obligations about jumps and the comparison -/

/-- Settles O31: from a target at or beyond `LEN` the next STEP finds the end of the program. -/
theorem jumpAbsoluteGoesToTheRegister : Obligations.JumpAbsoluteGoesToTheRegister := by
  intro s r h
  refine ⟨zext64 s.regs[r], zext64_toNat _, exec_jumpAbsolute_regByte r s h, fun hs hend => ?_⟩
  exact endOfProgramHaltsNormally (jumpTo (zext64 s.regs[r]) s) hs ((zext64_toNat _).symm ▸ hend)

/-- Settles O32: both summands are at most 2^32, so the sum is exact. -/
theorem jumpForwardAddsFromTheNextInstruction : Obligations.JumpForwardAddsFromTheNextInstruction := by
  intro s r hlen h
  refine ⟨s.pc + 1 + zext64 s.regs[r], ?_, exec_jumpForward_regByte r s h⟩
  have hbound : s.len ≤ 4294967295 := hlen
  have hreg : s.regs[r].toNat < 4294967296 := s.regs[r].isLt
  have hpc := pc_add_one_toNat hlen h
  have hnowrap : (s.pc + 1).toNat + (zext64 s.regs[r]).toNat < 2 ^ 64 := by
    rw [hpc, zext64_toNat]
    omega
  rw [BitVec.toNat_add_of_lt hnowrap, hpc, zext64_toNat]

/-- Settles O33: the value is no greater than the position, so the difference is exact. -/
theorem jumpBackwardSubtractsFromTheNextInstruction : Obligations.JumpBackwardSubtractsFromTheNextInstruction := by
  intro s r hlen h hr
  have hpc := pc_add_one_toNat hlen h
  have hle : s.regs[r].toNat ≤ (s.pc + 1).toNat := hpc.symm ▸ hr
  refine ⟨s.pc + 1 - zext64 s.regs[r], ?_, exec_jumpBackward_regByte_of_le r s h hle⟩
  rw [BitVec.toNat_sub_of_le ((zext64_toNat _).trans_le hle), hpc, zext64_toNat, Nat.sub_add_cancel hr]

theorem equalFlag_eq_true_iff (v w : Word) : equalFlag v w = true ↔ v.toInt = w.toInt := by
  rw [equalFlag, beq_iff_eq, BitVec.toInt_inj]

/-- Settles O34: equal words and equal signed readings are the same thing. -/
theorem compareEqualWritesTheFlag : Obligations.CompareEqualWritesTheFlag :=
  fun s a b h => ⟨equalFlag s.regs[a] s.regs[b], equalFlag_eq_true_iff _ _, exec_compareEqual_regByte a b s h⟩

/-- Settles O35: the two jumps take the two values of the flag. -/
theorem conditionalJumpsFollowTheFlag : Obligations.ConditionalJumpsFollowTheFlag :=
  fun s r h => ⟨zext64 s.regs[r], zext64_toNat _, exec_jumpIfEqual_regByte r s h, exec_jumpIfNotEqual_regByte r s h⟩

end Sys2Proof.Machine
end

section
/-! PROOFS. What an instruction touches (10_state.md R15, R21, 20_memory.md R32). What it writes is read off what it leaves when
it completes. What it does not read is shown by comparing two runs: if neither the checks nor the effect look at the part in
which two states differ, both runs end the same way (`after_rel`). -/

namespace Sys2Proof.Machine

/-! ### Registers of an instruction whose checks passed -/

/-- R14: every register number of an instruction that passed its operand checks is below 32. -/
theorem register_lt_of_registersOk {i : Instr} (hregs : registersOk i = true) {n : Nat}
    (h : n ∈ sources i ∨ destination i = some n) : n < 32 := by
  cases i with
  | add a b d | multiply a b d | divide a b d =>
    simp [registersOk, registerByteOk, sources, destination] at hregs h
    omega
  | compareEqual a b =>
    simp [registersOk, registerByteOk, sources, destination] at hregs h
    omega
  | load r | jumpAbsolute r | jumpForward r | jumpBackward r | jumpIfEqual r | jumpIfNotEqual r =>
    simp [registersOk, registerByteOk, sources, destination] at hregs h
    omega
  | halt | noOp | illegal => simp [sources, destination] at h

theorem regOf_ne {b : Byte} {r : Fin 32} (hb : b.toNat < 32) (h : b.toNat ≠ r.val) : regOf b ≠ r := by
  rintro rfl
  exact h (regOf_val hb).symm

/-! ### What is written -/

/-- R15: an instruction that completes writes no register but its destination. -/
theorem readX_completed {i : Instr} (s : State) {r : Fin 32} (hregs : registersOk i = true)
    (h : destination i ≠ some r.val) : readX (completed i s) r = readX s r := by
  have hne {b : Byte} (hb : destination i = some b.toNat) : regOf b ≠ r :=
    regOf_ne (register_lt_of_registersOk hregs (.inr hb)) fun heq => h (hb.trans (congrArg some heq))
  cases i with
  | load d | add _ _ d | multiply _ _ d | divide _ _ d => exact readX_writeX_other (regOf d) r _ s (hne rfl)
  | _ => rfl

/-- Settles O38: a fault writes no register, and a completed instruction only its destination. -/
theorem onlyTheDestinationRegisterChanges : Obligations.OnlyTheDestinationRegisterChanges := by
  intro i s t hexec r hr
  obtain rfl := after_of_exec hexec
  rcases after_cases i s with ⟨k, n, _, hafter⟩ | ⟨_, k, _, hafter⟩ | ⟨hnone, _, hafter⟩
  · rw [hafter]
    rfl
  · rw [hafter]
    rfl
  · rw [hafter]
    exact readX_completed (pastOperands i s) (registersOk_of_firstFault_none hnone) hr

/-- R21: of the instructions that complete, DIVIDE alone writes `rem`. -/
theorem exists_divide_of_completed_rem_ne {i : Instr} {s : State} (h : (completed i s).rem ≠ s.rem) :
    ∃ a b d, i = .divide a b d := by
  cases i with
  | divide a b d => exact ⟨a, b, d, rfl⟩
  | _ => exact absurd rfl h

theorem readX_ne_zero_of_executeFault_none (a b d : Byte) {s : State} (h : executeFault (.divide a b d) s = none) :
    readX s (regOf b) ≠ 0 := by
  intro hzero
  rw [executeFault_divide, if_pos hzero] at h
  cases h

/-- R21: an instruction that changes `rem` is a DIVIDE that passed every check. -/
theorem exec_divide_of_rem_ne (i : Instr) (s t : State) (hexec : exec i s = .next t) (hrem : t.rem ≠ s.rem) :
    ∃ a b d : Fin 32, i = .divide (regByte a) (regByte b) (regByte d) ∧ s.regs[b] ≠ 0 ∧ t.status = s.status := by
  obtain rfl := after_of_exec hexec
  rcases after_cases i s with ⟨k, n, _, hafter⟩ | ⟨_, k, _, hafter⟩ | ⟨hnone, hpass, hafter⟩
  · rw [hafter] at hrem
    exact absurd rfl hrem
  · rw [hafter] at hrem
    exact absurd rfl hrem
  · rw [hafter] at hrem ⊢
    obtain ⟨a, b, d, rfl⟩ := exists_divide_of_completed_rem_ne (s := pastOperands i s) hrem
    obtain ⟨ha, hb, hd⟩ := regByte_regOf_three (registersOk_of_firstFault_none hnone)
    exact ⟨regOf a, regOf b, regOf d, by rw [ha, hb, hd], readX_ne_zero_of_executeFault_none a b d hpass, rfl⟩

/-- Settles O42: instructions by `exec_divide_of_rem_ne`, and the commands write what they say. -/
theorem onlyCompletedDivideWritesRem : Obligations.OnlyCompletedDivideWritesRem := by
  refine ⟨exec_divide_of_rem_ne, fun limit bytes s t h => ?_, rfl, resetCore_rem⟩
  rw [eq_setProgram_of_loadProgram h, setProgram_rem]

/-! ### Two runs -/

/-- Two runs from states with the same `pc` and `LEN` fail the same operand check. So if the check at execute time comes out
the same too, what holds of two faults and of two completed instructions holds of the two next states. -/
theorem after_rel {R : State → State → Prop} {i : Instr} {s s' : State} (hpc : s'.pc = s.pc) (hlen : s'.len = s.len)
    (hraise : ∀ k n, R (raise k (consumed n s)) (raise k (consumed n s')))
    (hexecute : registersOk i = true → executeFault i (pastOperands i s') = executeFault i (pastOperands i s))
    (hcompleted : registersOk i = true → R (completed i (pastOperands i s)) (completed i (pastOperands i s'))) :
    R (after i s) (after i s') := by
  have hfirst : firstFault i s' = firstFault i s := by simp only [firstFault, availableBytes, hpc, hlen]
  rcases after_cases i s with ⟨k, n, hfault, hafter⟩ | ⟨hnone, k, hfault, hafter⟩ | ⟨hnone, hpass, hafter⟩
  · rw [hafter, after_of_fault (hfirst.trans hfault)]
    exact hraise k n
  · have hregs := registersOk_of_firstFault_none hnone
    rw [hafter, after_of_none (hfirst.trans hnone), performed_of_fault ((hexecute hregs).trans hfault)]
    exact hraise k _
  · have hregs := registersOk_of_firstFault_none hnone
    rw [hafter, after_of_none (hfirst.trans hnone), performed_of_none ((hexecute hregs).trans hpass)]
    exact hcompleted hregs

/-- The checks at execute time look at the source registers and `pc` alone. -/
theorem executeFault_congr {i : Instr} {s s' : State} (hpc : s'.pc = s.pc)
    (hread : ∀ b : Byte, b.toNat ∈ sources i → readX s' (regOf b) = readX s (regOf b)) :
    executeFault i s' = executeFault i s := by
  cases i with
  | divide a b d => rw [executeFault_divide, executeFault_divide, hread b (by simp [sources])]
  | jumpBackward r => rw [executeFault_jumpBackward, executeFault_jumpBackward, hread r (by simp [sources]), hpc]
  | _ => rfl

/-! ### Two runs that differ in one register -/

/-- The second state is the first but for what register `r` holds. -/
structure AgreeOff (r : Fin 32) (s s' : State) : Prop where
  pc_eq : s'.pc = s.pc
  rem_eq : s'.rem = s.rem
  flag_eq : s'.flag = s.flag
  status_eq : s'.status = s.status
  len_eq : s'.len = s.len
  mem_eq : s'.mem = s.mem
  readX_eq : ∀ q, q ≠ r → readX s' q = readX s q

namespace AgreeOff

variable {r : Fin 32} {s s' : State} (h : AgreeOff r s s')
include h

theorem raise (k : FaultKind) : AgreeOff r (raise k s) (raise k s') := { h with status_eq := rfl }
theorem haltNormal : AgreeOff r (haltNormal s) (haltNormal s') := { h with status_eq := rfl }
theorem jumpTo (target : Offset) : AgreeOff r (jumpTo target s) (jumpTo target s') := { h with pc_eq := rfl }
theorem writeRem (v : Word) : AgreeOff r (writeRem v s) (writeRem v s') := { h with rem_eq := rfl }
theorem writeFlag (f : Bool) : AgreeOff r (writeFlag f s) (writeFlag f s') := { h with flag_eq := rfl }

theorem consumed (n : Nat) : AgreeOff r (consumed n s) (consumed n s') :=
  { h with pc_eq := congrArg (· + BitVec.ofNat 64 n) h.pc_eq }

/-- The same word written to the same register, `r` or another. -/
theorem writeX (d : Fin 32) (v : Word) : AgreeOff r (writeX d v s) (writeX d v s') := by
  refine { h with readX_eq := fun q hq => ?_ }
  by_cases hd : d = q
  · rw [hd, readX_writeX_same, readX_writeX_same]
  · rw [readX_writeX_other d q v s' hd, readX_writeX_other d q v s hd]
    exact h.readX_eq q hq

/-- R15: what an instruction leaves depends on no register but its sources. -/
theorem completed {i : Instr} (hread : ∀ b : Byte, b.toNat ∈ sources i → readX s' (regOf b) = readX s (regOf b)) :
    AgreeOff r (completed i s) (completed i s') := by
  unfold Machine.completed
  cases i with
  | halt => exact h.haltNormal
  | load d imm => exact h.writeX _ _
  | add a b d | multiply a b d =>
    simp only [hread a (by simp [sources]), hread b (by simp [sources])]
    exact h.writeX _ _
  | divide a b d =>
    simp only [hread a (by simp [sources]), hread b (by simp [sources])]
    exact (h.writeX _ _).writeRem _
  | compareEqual a b =>
    simp only [hread a (by simp [sources]), hread b (by simp [sources])]
    exact h.writeFlag _
  | jumpAbsolute b | jumpForward b | jumpBackward b | jumpIfEqual b | jumpIfNotEqual b =>
    simp only [hread b (by simp [sources]), h.pc_eq, h.flag_eq]
    exact h.jumpTo _
  | noOp | illegal => exact h

end AgreeOff

theorem agreeOff_writeX (r : Fin 32) (v : Word) (s : State) : AgreeOff r s (writeX r v s) where
  pc_eq := rfl
  rem_eq := rfl
  flag_eq := rfl
  status_eq := rfl
  len_eq := rfl
  mem_eq := rfl
  readX_eq q hq := readX_writeX_other r q v s hq.symm

/-- A register that is no source reads the same wherever an instruction past its operand checks looks. -/
theorem AgreeOff.readX_source {i : Instr} {r : Fin 32} {s s' : State} (h : AgreeOff r s s') (hr : r.val ∉ sources i)
    (hregs : registersOk i = true) (b : Byte) (hb : b.toNat ∈ sources i) :
    readX s' (regOf b) = readX s (regOf b) :=
  h.readX_eq _ (regOf_ne (register_lt_of_registersOk hregs (.inl hb)) fun heq => hr (heq ▸ hb))

/-- R15: two runs that differ in a register that is no source differ nowhere else. -/
theorem after_agreeOff {i : Instr} {r : Fin 32} {s s' : State} (hr : r.val ∉ sources i) (h : AgreeOff r s s') :
    AgreeOff r (after i s) (after i s') := by
  have hpast : AgreeOff r (pastOperands i s) (pastOperands i s') := h.consumed _
  refine after_rel h.pc_eq h.len_eq (fun k n => (h.consumed n).raise k) (fun hregs => ?_) fun hregs => ?_
  · exact executeFault_congr hpast.pc_eq (hpast.readX_source hr hregs)
  · exact hpast.completed (hpast.readX_source hr hregs)

/-- Settles O39: the two states agree off the register, and so do the next ones. -/
theorem onlySourceRegistersMatter : Obligations.OnlySourceRegistersMatter := by
  intro i s t u r v hr ht hu
  obtain rfl := after_of_exec ht
  obtain rfl := after_of_exec hu
  have h : AgreeOff r (after i s) (after i (writeX r v s)) := after_agreeOff hr (agreeOff_writeX r v s)
  exact ⟨h.pc_eq, h.rem_eq, h.flag_eq, h.status_eq, h.len_eq, h.mem_eq, h.readX_eq⟩

/-! ### Two runs that differ in `rem` -/

/-- The second next state has the other `rem`, or both have what was written to it. -/
def RemCarried (v : Word) (t u : State) : Prop := u = writeRem v t ∨ u = t

theorem RemCarried.eq_and {v : Word} {t u : State} (h : RemCarried v t u) :
    u = { t with rem := u.rem } ∧ (u.rem = v ∨ u.rem = t.rem) := by
  rcases h with rfl | rfl
  · exact ⟨rfl, .inl rfl⟩
  · exact ⟨rfl, .inr rfl⟩

/-- R21: no effect reads `rem`; that of DIVIDE overwrites it. -/
theorem completed_remCarried (i : Instr) (v : Word) (s : State) :
    RemCarried v (completed i s) (completed i (writeRem v s)) := by
  cases i with
  | divide a b d => exact .inr rfl
  | _ => exact .inl rfl

theorem after_remCarried (i : Instr) (v : Word) (s : State) : RemCarried v (after i s) (after i (writeRem v s)) :=
  after_rel rfl rfl (fun _ _ => .inl rfl) (fun _ => executeFault_congr rfl fun _ _ => rfl)
    fun _ => completed_remCarried i v (pastOperands i s)

theorem step_of_not_running {s : State} (hs : s.status ≠ .running) : step s = .next s := by
  rcases step_cases s with ⟨_, h⟩ | ⟨hrun, _⟩ | ⟨hrun, _⟩
  · exact h
  · exact absurd hrun hs
  · exact absurd hrun hs

/-- Settles O43: how a STEP begins does not depend on `rem`, and then neither does what the instruction leaves elsewhere. -/
theorem noInstructionReadsRem : Obligations.NoInstructionReadsRem := by
  intro s t u v ht hu
  refine RemCarried.eq_and ?_
  have hu : step (writeRem v s) = .next u := hu
  rcases step_cases s with ⟨hhalted, hself⟩ | ⟨hs, hend, hnormal⟩ | ⟨hs, hlt, i, hfetch, hrun⟩
  · obtain rfl := Host.Outcome.next.inj (hself.symm.trans ht)
    exact .inl (Host.Outcome.next.inj (hu.symm.trans (step_of_not_running (s := writeRem v s) hhalted)))
  · obtain rfl := Host.Outcome.next.inj (hnormal.symm.trans ht)
    exact .inl (Host.Outcome.next.inj (hu.symm.trans (endOfProgramHaltsNormally (writeRem v s) hs hend)))
  · have hrun' : step (writeRem v s) = exec i (advance (writeRem v s)) := step_of_fetch hs hlt hfetch
    rw [after_of_exec (hrun.symm.trans ht), after_of_exec (hrun'.symm.trans hu)]
    exact after_remCarried i v (advance s)

/-! ### Two runs that differ in the memory at or above `LEN` -/

/-- The state with another memory. -/
def withMemory (m : Memory) (s : State) : State := { s with mem := m }

section Memory

variable {m : Memory} {s : State} (h : ∀ a, a < s.len → Memory.read m a = Memory.read s.mem a)
include h

theorem memRead_withMemory (a : Nat) : memRead (withMemory m s) a = memRead s a := by
  by_cases ha : a < s.len
  · rw [memRead_of_lt s a ha, memRead_of_lt (withMemory m s) a ha]
    exact congrArg Except.ok (h a ha)
  · rw [memRead_of_ge s a (Nat.not_lt.1 ha), memRead_of_ge (withMemory m s) a (Nat.not_lt.1 ha)]

theorem operandByte_withMemory (a : Offset) : operandByte (withMemory m s) a = operandByte s a := by
  by_cases ha : a.toNat < s.len
  · have hread := memRead_of_lt s a.toNat ha
    rw [operandByte_of_ok s a _ hread, operandByte_of_ok (withMemory m s) a _ ((memRead_withMemory h _).trans hread)]
  · rw [operandByte_of_ge s a (Nat.not_lt.1 ha), operandByte_of_ge (withMemory m s) a (Nat.not_lt.1 ha)]

/-- R32: the fetch reads no byte at or above `LEN`. -/
theorem fetch_withMemory : fetch (withMemory m s) = fetch s := by
  have hpc : (withMemory m s).pc = s.pc := rfl
  simp only [fetch, hpc, memRead_withMemory h, operandByte_withMemory h]

end Memory

/-- No instruction looks at the memory: its operand bytes came with the fetch. -/
theorem after_withMemory (i : Instr) (m : Memory) (s : State) : after i (withMemory m s) = withMemory m (after i s) :=
  after_rel (R := fun t u => u = withMemory m t) rfl rfl (fun _ _ => rfl)
    (fun _ => executeFault_congr rfl fun _ _ => rfl) fun _ => by cases i <;> rfl

/-- R77, R109: every STEP goes on. -/
theorem step_safe (s : State) : Safe s := by
  rcases step_cases s with ⟨_, h⟩ | ⟨_, _, h⟩ | ⟨_, _, i, _, h⟩
  · exact ⟨_, h⟩
  · exact ⟨_, h⟩
  · exact ⟨_, h.trans (exec_eq i (advance s))⟩

/-- Settles O13: the STEP begins the same way with the other memory, and the instruction carries it along. -/
theorem everyStepAnswersANextState : Obligations.EveryStepAnswersANextState := by
  refine ⟨step_safe, fun s m hm => ⟨fetch_withMemory hm, fun t ht => ?_⟩⟩
  change step (withMemory m s) = .next (withMemory m t)
  rcases step_cases s with ⟨hhalted, hself⟩ | ⟨hs, hend, hnormal⟩ | ⟨hs, hlt, i, hfetch, hrun⟩
  · obtain rfl := Host.Outcome.next.inj (hself.symm.trans ht)
    exact step_of_not_running hhalted
  · obtain rfl := Host.Outcome.next.inj (hnormal.symm.trans ht)
    exact endOfProgramHaltsNormally (withMemory m s) hs hend
  · have hrun' : step (withMemory m s) = exec i (advance (withMemory m s)) :=
      step_of_fetch hs hlt ((fetch_withMemory hm).trans hfetch)
    rw [after_of_exec (hrun.symm.trans ht), hrun', exec_eq]
    exact congrArg Host.Outcome.next (after_withMemory i m (advance s))

end Sys2Proof.Machine
end

section
/-! PROOFS. The host's side (40_execution_cycle.md R64–R67, 70_reset_and_hazards.md R128–R131): the values after creation and
RESET, the status codes, LOAD_PROGRAM, and RUN. About RUN there is one fact: once it has halted it answers the same for every
larger budget. -/

namespace Sys2Proof.Machine

/-! ### Creation, RESET and the status codes -/

theorem replicate_getElem_zero (r : Fin 32) : (Vector.replicate 32 (0 : Word))[r] = 0 :=
  Vector.getElem_replicate r.isLt

/-- Settles O7: with an empty program the first STEP finds its end. -/
theorem resetHoldsTheCreationValues : Obligations.ResetHoldsTheCreationValues := by
  refine ⟨replicate_getElem_zero, rfl, rfl, rfl, rfl, rfl, fun a => ⟨_, memRead_of_ge _ a (Nat.zero_le a)⟩, ?_⟩
  exact endOfProgramHaltsNormally State.reset rfl (Nat.le_refl 0)

/-- Settles O44: RESET writes every element but the program. -/
theorem resetCommandClearsAllButTheProgram : Obligations.ResetCommandClearsAllButTheProgram := by
  intro limit s
  obtain ⟨hlen, hread⟩ := (sameProgram_resetCore s).reads
  exact ⟨resetCore s, rfl, replicate_getElem_zero, rfl, rfl, rfl, rfl, hlen, hread⟩

/-- The status a code stands for. -/
def statusOfCode (c : BitVec 3) : Option Status :=
  match c.toNat with
  | 0 => some .running
  | 1 => some .haltedNormal
  | 2 => some (.haltedFault .illegalOpcode)
  | 3 => some (.haltedFault .invalidRegisterIndex)
  | 4 => some (.haltedFault .divisionByZero)
  | 5 => some (.haltedFault .truncatedProgram)
  | 6 => some (.haltedFault .invalidJumpTarget)
  | _ => none

theorem statusOfCode_statusCode (a : Status) : statusOfCode (statusCode a) = some a := by
  cases a with
  | running => rfl
  | haltedNormal => rfl
  | haltedFault k => cases k <;> rfl

/-- Settles O9: a code can be read back, and 7 is the code of nothing. -/
theorem statusCodesAreDistinctAndNeverSeven : Obligations.StatusCodesAreDistinctAndNeverSeven := by
  refine ⟨rfl, rfl, rfl, rfl, rfl, rfl, rfl, fun a b h => ?_, fun a h => ?_⟩
  · have hread := congrArg statusOfCode h
    rw [statusOfCode_statusCode, statusOfCode_statusCode] at hread
    exact Option.some.inj hread
  · have hread := statusOfCode_statusCode a
    rw [h] at hread
    cases hread

/-! ### LOAD_PROGRAM -/

/-- R131: below its length, a loaded program reads as its bytes. -/
theorem memRead_setProgram_of_lt (bytes : List Byte) (s : State) (a : Nat) (h : a < bytes.length) :
    memRead (setProgram bytes s) a = .ok bytes[a] := by
  have hread : Memory.read (Memory.ofBytes 0 bytes) a = bytes.getD a 0#8 := by
    rw [← Memory.read_ofBytes bytes 0 a, Nat.zero_add]
  rw [memRead_of_lt _ a h, setProgram_mem, hread, List.getD_eq_getElem bytes 0#8 h]

/-- Settles O45: an accepted program is read back byte by byte, and a longer one is refused. -/
theorem loadProgramReplacesTheProgram : Obligations.LoadProgramReplacesTheProgram := by
  refine fun limit bytes s => ⟨fun h => ?_, loadProgram_of_lt s⟩
  exact ⟨setProgram bytes s, loadProgram_of_le s h, rfl, memRead_setProgram_of_lt bytes s,
    fun a ha => memRead_of_ge (setProgram bytes s) a ha, rfl, rfl, rfl, rfl, rfl⟩

/-! ### A halted core -/

theorem runFor_of_not_running {s : State} (hs : s.status ≠ .running) (n : Nat) : runFor n s = .next s := by
  cases n with
  | zero => rfl
  | succ n => exact runFor_succ_of_ne_running n (step_of_not_running hs) hs

/-- Settles O12: a halted core answers itself, and RESET alone writes its status. -/
theorem haltedCoreStaysHaltedUntilReset : Obligations.HaltedCoreStaysHaltedUntilReset := by
  refine fun s hs => ⟨step_of_not_running hs, runFor_of_not_running hs, fun limit bytes t h => ?_, rfl⟩
  rw [eq_setProgram_of_loadProgram h, setProgram_status]

theorem decodeBytes_halt (b1 b2 b3 : Byte) : decodeBytes 0x00 b1 b2 b3 = .halt := rfl

/-- R107: a STEP at a HALT byte. -/
theorem step_halt {s : State} (hs : s.status = .running) (h0 : memRead s s.pc.toNat = .ok 0x00) :
    step s = .next (haltNormal (advance s)) := by
  rw [step_of_memRead hs h0, decodeBytes_halt, exec_halt]

/-- Settles O37: the STEP by `step_halt`; after it the core is halted. -/
theorem haltEndsTheRunNormally : Obligations.HaltEndsTheRunNormally := by
  refine ⟨rfl, exec_halt, fun s hs h0 => ⟨haltNormal (advance s), step_halt hs h0, rfl, ?_⟩⟩
  have hhalted : (haltNormal (advance s)).status ≠ .running := nofun
  exact ⟨step_of_not_running hhalted, runFor_of_not_running hhalted, rfl⟩

/-! ### RUN -/

theorem run_succ_of_next (M : Host.Core) (n : Nat) {s t : M.State} (h : M.step s = .next t) :
    M.run (n + 1) s = M.run n t := by
  simp only [Host.Core.run, h]

theorem core_run_succ (n : Nat) {s t : State} (h : step s = .next t) :
    Host.Core.run core (n + 1) s = Host.Core.run core n t :=
  run_succ_of_next core n h

/-- Plain STEPs of a halted core do nothing (R67). -/
theorem core_run_of_not_running {s : State} (hs : s.status ≠ .running) (n : Nat) :
    Host.Core.run core n s = .next s := by
  induction n with
  | zero => rfl
  | succ n ih => rw [core_run_succ n (step_of_not_running hs), ih]

/-- Settles O46: where RUN leaves its loop the core is halted, and the STEPs that remain do nothing. -/
theorem runIsRepeatedStep : Obligations.RunIsRepeatedStep := by
  intro n
  induction n with
  | zero => exact fun s => rfl
  | succ n ih =>
    intro s
    obtain ⟨t, ht⟩ := step_safe s
    rw [core_run_succ n ht]
    by_cases hrun : t.status = .running
    · rw [runFor_succ_of_running n ht hrun, ih]
    · exact (runFor_succ_of_ne_running n ht hrun).trans (core_run_of_not_running hrun n).symm

/-- A RUN that halted within its budget answers the same with more. -/
theorem runFor_add {n : Nat} {s t : State} (h : runFor n s = .next t) (ht : t.status ≠ .running) (m : Nat) :
    runFor (n + m) s = .next t := by
  induction n generalizing s with
  | zero =>
    obtain rfl : s = t := Host.Outcome.next.inj h
    exact runFor_of_not_running ht _
  | succ n ih =>
    rw [Nat.succ_add]
    obtain ⟨u, hu, ⟨hrun, hrest⟩ | ⟨hhalt, rfl⟩⟩ := runFor_succ_cases h
    · rw [runFor_succ_of_running (n + m) hu hrun, ih hrest]
    · exact runFor_succ_of_ne_running (n + m) hu hhalt

/-- Two budgets that both suffice are both within their sum. -/
theorem RunReturns.unique {s t u : State} (ht : RunReturns s t) (hu : RunReturns s u) : t = u := by
  obtain ⟨n, hn, hthalt⟩ := ht
  obtain ⟨m, hm, huhalt⟩ := hu
  have hu' := runFor_add hm huhalt n
  rw [Nat.add_comm] at hu'
  exact Host.Outcome.next.inj ((runFor_add hn hthalt m).symm.trans hu')

/-- R66: the first STEP of a RUN from a Running core. -/
theorem runReturns_iff_of_step {s t : State} (hs : s.status = .running) (ht : step s = .next t) (u : State) :
    RunReturns s u ↔ RunReturns t u := by
  constructor
  · rintro ⟨n, hn, hu⟩
    cases n with
    | zero =>
      obtain rfl : s = u := Host.Outcome.next.inj hn
      exact absurd hs hu
    | succ n =>
      obtain ⟨v, hv, hrest⟩ := runFor_succ_cases hn
      obtain rfl : v = t := Host.Outcome.next.inj (hv.symm.trans ht)
      rcases hrest with ⟨_, hrest⟩ | ⟨_, rfl⟩
      · exact ⟨n, hrest, hu⟩
      · exact ⟨0, rfl, hu⟩
  · rintro ⟨n, hn, hu⟩
    by_cases hrun : t.status = .running
    · exact ⟨n + 1, (runFor_succ_of_running n ht hrun).trans hn, hu⟩
    · obtain rfl : t = u := Host.Outcome.next.inj ((runFor_of_not_running hrun n).symm.trans hn)
      exact ⟨1, runFor_succ_of_ne_running 0 ht hrun, hu⟩

/-- Settles O47: by definition, by `RunReturns.unique`, and by the first STEP. -/
theorem runReturnsOneHaltedState : Obligations.RunReturnsOneHaltedState :=
  ⟨fun _ _ ⟨_, _, hhalt⟩ => hhalt, fun _ _ _ => RunReturns.unique,
    fun _ _ u hs ht => runReturns_iff_of_step hs ht u⟩

end Sys2Proof.Machine
end
